-- ==== Sys2Proof/Word.lean ====
section
/-! DEFINITION. The octet and the octet sequence of known length (spec/00_scope.md R10). -/

namespace Sys2Proof

/-- An octet, an unsigned 8-bit value (R10). -/
abbrev Byte := BitVec 8

/-- An octet sequence of exactly `n` octets, element 0 first in memory order (R10). -/
abbrev Octets (n : Nat) := { b : List Byte // b.length = n }

end Sys2Proof
end

