-- ==== Sys2Proof/Machine/Operands.lean ====
section
/-! DEFINITION. The byte-order codec's four functions (spec/40_codec.md R130 to R132, R147, R148):
the one place where a value becomes octets or octets a value. The command decoder, the frame builder
and the checksum calculator all use them, at 2, 4 and 8 octets only. The spec's domain is exactly those
counts (R130; spec/93_implementation_defined.md U19); that the functions have a value at every count is
the model's choice (DESIGN CHOICE, log entry 21). -/

namespace Sys2Proof.Machine

/-- encode_be(v, 8n): octet `i` is `(v >> (W - 8 - 8i)) mod 256` with `W = 8n` (R131). Outside `n` in 2, 4,
8 the spec gives no value (log entry 21). -/
def encodeBe (n : Nat) (v : BitVec (8 * n)) : List Byte :=
  (List.range n).map fun i => BitVec.ofNat 8 (v.toNat >>> (8 * n - 8 - 8 * i))

/-- encode_le(v, 8n): octet `i` is `(v >> 8i) mod 256` (R147). Outside `n` in 2, 4, 8 the spec gives
no value (log entry 21). -/
def encodeLe (n : Nat) (v : BitVec (8 * n)) : List Byte :=
  (List.range n).map fun i => BitVec.ofNat 8 (v.toNat >>> (8 * i))

/-- decode_be(b): from the first octet on, `v = (v << 8) | b[i]` (R132). Outside lengths 2, 4, 8 the
spec gives no value (log entry 21). -/
def decodeBe (b : List Byte) : Nat :=
  b.foldl (fun v o => (v <<< 8) ||| o.toNat) 0

/-- decode_le(b): from the last octet down, `v = (v << 8) | b[i]` (R148). Outside lengths 2, 4, 8 the
spec gives no value (log entry 21). -/
def decodeLe (b : List Byte) : Nat :=
  b.foldr (fun o v => (v <<< 8) ||| o.toNat) 0

/-- decode_be of `n` octets as the `8n`-bit value it is (R132: the result is below `2^(8n)`). -/
def beWord (n : Nat) (b : Octets n) : BitVec (8 * n) := BitVec.ofNat (8 * n) (decodeBe b.val)

/-- decode_le of `n` octets as the `8n`-bit value it is (R148). -/
def leWord (n : Nat) (b : Octets n) : BitVec (8 * n) := BitVec.ofNat (8 * n) (decodeLe b.val)

/-- The octet sequence of fixed size `n` at the start of `b`, or none where `b` has another length. -/
def exactly (n : Nat) (b : List Byte) : Option (Octets n) :=
  if h : b.length = n then some ⟨b, h⟩ else none

end Sys2Proof.Machine
end

