-- ==== Sys2Proof/Config.lean ====
section
/-! DEFINITION. The implementation parameters of spec/00_scope.md R9 that are types or reference
values. The configuration inputs IP_ID and IFH themselves are held in State as fields no step writes
(log entry 4); the fixed constants of R8 are in Machine/Constants.lean. -/

namespace Sys2Proof

/-- IFH, the egress interface handle: an opaque token, passed through and never inspected
(R9, spec/43_tx_handoff.md R221). The number inside has no meaning (DESIGN CHOICE, log entry 5). -/
structure IfHandle where
  token : Nat
deriving DecidableEq, Repr

/-- UDP_CSUM_MODE: only `disabled` exists in this hardware (R9, spec/92_eei_decisions.md D12). -/
inductive UdpCsumMode where
  | disabled
deriving DecidableEq, Repr

/-- The mode of this hardware (R9). -/
def Config.udpCsumMode : UdpCsumMode := .disabled

/-- The reference value of the configuration input IP_ID (R9). -/
def Config.refIpId : BitVec 16 := 0xABCD

/-- The reference capacity, the source's 8000-octet payload ceiling plus 42 (R9). -/
def Config.refCap : Nat := 8042

end Sys2Proof
end

