-- ==== Sys2Proof/Syntax.lean ====
section
/-! DEFINITION. The sixteen commands (spec/30_encoding.md R104, one constructor per row of
spec/opcode_table.json), their opcodes and their packet formats (R102). -/

namespace Sys2Proof

/-- A decoded command with its operands. A value of width W is a `BitVec W`; an octet-sequence operand
of fixed size is an `Octets n`; the four addresses of BUILD_HEADER and the payload of SEND are
sequences whose length the command, or the packet, carries (spec/30_encoding.md R101, R102). -/
inductive Instr where
  | encBe16 (v : BitVec 16)
  | encBe32 (v : BitVec 32)
  | encBe64 (v : BitVec 64)
  | encLe16 (v : BitVec 16)
  | encLe32 (v : BitVec 32)
  | encLe64 (v : BitVec 64)
  | decBe16 (b : Octets 2)
  | decBe32 (b : Octets 4)
  | decBe64 (b : Octets 8)
  | decLe16 (b : Octets 2)
  | decLe32 (b : Octets 4)
  | decLe64 (b : Octets 8)
  | ipcsum (hdr : Octets 20)
  | init (capacity : BitVec 32)
  | buildHeader (srcMac dstMac srcIp dstIp : List Byte) (srcPort dstPort : BitVec 16)
  | send (payload : List Byte)
deriving DecidableEq, Repr

/-- The sixteen opcodes, without operands (R104). -/
inductive Opcode where
  | encBe16 | encBe32 | encBe64
  | encLe16 | encLe32 | encLe64
  | decBe16 | decBe32 | decBe64
  | decLe16 | decLe32 | decLe64
  | ipcsum | init | buildHeader | send
deriving DecidableEq, Repr

/-- The seven packet formats (R102). -/
inductive Format where
  | c16 | c32 | c64 | k | i | b | s
deriving DecidableEq, Repr

/-- The opcode of a command (R104). -/
def Instr.opcode : Instr → Opcode
  | .encBe16 _ => .encBe16
  | .encBe32 _ => .encBe32
  | .encBe64 _ => .encBe64
  | .encLe16 _ => .encLe16
  | .encLe32 _ => .encLe32
  | .encLe64 _ => .encLe64
  | .decBe16 _ => .decBe16
  | .decBe32 _ => .decBe32
  | .decBe64 _ => .decBe64
  | .decLe16 _ => .decLe16
  | .decLe32 _ => .decLe32
  | .decLe64 _ => .decLe64
  | .ipcsum _ => .ipcsum
  | .init _ => .init
  | .buildHeader _ _ _ _ _ _ => .buildHeader
  | .send _ => .send

end Sys2Proof
end

