-- ==== Sys2Proof/WellFormed.lean ====
section
/-! DEFINITION. Which commands a packet can carry (spec/30_encoding.md R101, R102): an address length
is one octet, a payload length four octets. Every other operand is bounded by its type. -/

namespace Sys2Proof

/-- The command fits the fields of its packet format. The address lengths 6 and 4 are NOT part of it:
a command with other lengths is well formed and ends in InvalidAddressLength (R105,
spec/42_builder.md R185). -/
def Instr.WellFormed : Instr → Bool
  | .encBe16 _ => true
  | .encBe32 _ => true
  | .encBe64 _ => true
  | .encLe16 _ => true
  | .encLe32 _ => true
  | .encLe64 _ => true
  | .decBe16 _ => true
  | .decBe32 _ => true
  | .decBe64 _ => true
  | .decLe16 _ => true
  | .decLe32 _ => true
  | .decLe64 _ => true
  | .ipcsum _ => true
  | .init _ => true
  | .buildHeader srcMac dstMac srcIp dstIp _ _ =>
      decide (srcMac.length < 2 ^ 8) && decide (dstMac.length < 2 ^ 8)
        && decide (srcIp.length < 2 ^ 8) && decide (dstIp.length < 2 ^ 8)
  | .send payload => decide (payload.length < 2 ^ 32)

end Sys2Proof
end

