-- ==== Sys2Proof/Decode.lean ====
section
/-! DEFINITION. The command packet decoder (spec/30_encoding.md R100 to R107), total on any octets,
and after it the encoder, written from the same tables. -/

namespace Sys2Proof

/-- Why a packet is no command (R105). -/
inductive DecodeError where
  /-- reserved opcode (R106) -/
  | opcodeError
  /-- empty packet, or a known opcode whose packet length does not fit its format (R107) -/
  | formatError
deriving DecidableEq, Repr

/-- The opcode octets of R104, in the table's order. -/
def opcodeTable : List (Byte × Opcode) :=
  [(0x11, .encBe16), (0x12, .encBe32), (0x13, .encBe64),
   (0x15, .encLe16), (0x16, .encLe32), (0x17, .encLe64),
   (0x19, .decBe16), (0x1A, .decBe32), (0x1B, .decBe64),
   (0x1D, .decLe16), (0x1E, .decLe32), (0x1F, .decLe64),
   (0x20, .ipcsum), (0x30, .init), (0x31, .buildHeader), (0x32, .send)]

/-- The command an opcode octet names, or none where the octet is reserved (R104, R106). -/
def opcodeOf (o : Byte) : Option Opcode :=
  (opcodeTable.find? fun r => r.1 == o).map (·.2)

/-- The octet of an opcode (R104). -/
def opcodeByte : Opcode → Byte
  | .encBe16 => 0x11
  | .encBe32 => 0x12
  | .encBe64 => 0x13
  | .encLe16 => 0x15
  | .encLe32 => 0x16
  | .encLe64 => 0x17
  | .decBe16 => 0x19
  | .decBe32 => 0x1A
  | .decBe64 => 0x1B
  | .decLe16 => 0x1D
  | .decLe32 => 0x1E
  | .decLe64 => 0x1F
  | .ipcsum => 0x20
  | .init => 0x30
  | .buildHeader => 0x31
  | .send => 0x32

/-- The packet format of an opcode (R104). -/
def formatOf : Opcode → Format
  | .encBe16 => .c16
  | .encBe32 => .c32
  | .encBe64 => .c64
  | .encLe16 => .c16
  | .encLe32 => .c32
  | .encLe64 => .c64
  | .decBe16 => .c16
  | .decBe32 => .c32
  | .decBe64 => .c64
  | .decLe16 => .c16
  | .decLe32 => .c32
  | .decLe64 => .c64
  | .ipcsum => .k
  | .init => .i
  | .buildHeader => .b
  | .send => .s

/-- A one-octet length and the octets it announces, with what follows them; none where the length
octet or the field runs past the end (R105, format B). -/
def lengthPrefixed : List Byte → Option (List Byte × List Byte)
  | [] => none
  | n :: rest =>
    if n.toNat ≤ rest.length then some (rest.take n.toNat, rest.drop n.toNat) else none

/-- Format B after the opcode: four length-prefixed fields, then exactly four octets of ports
(R102, R105). -/
def decodeBuild (d : List Byte) : Option Instr :=
  match lengthPrefixed d with
  | none => none
  | some (srcMac, d1) =>
    match lengthPrefixed d1 with
    | none => none
    | some (dstMac, d2) =>
      match lengthPrefixed d2 with
      | none => none
      | some (srcIp, d3) =>
        match lengthPrefixed d3 with
        | none => none
        | some (dstIp, d4) =>
          match d4 with
          | [p0, p1, q0, q1] =>
            some (.buildHeader srcMac dstMac srcIp dstIp
              (Machine.beWord 2 ⟨[p0, p1], rfl⟩) (Machine.beWord 2 ⟨[q0, q1], rfl⟩))
          | _ => none

/-- Format S after the opcode: a four-octet length and exactly that many octets (R102, R105). -/
def decodeSend : List Byte → Option Instr
  | l0 :: l1 :: l2 :: l3 :: payload =>
    if payload.length = Machine.decodeBe [l0, l1, l2, l3] then some (.send payload) else none
  | _ => none

/-- The operands of a known opcode, or none where the packet length does not fit the format (R105). -/
def decodeOperands : Opcode → List Byte → Option Instr
  | .encBe16, d => (Machine.exactly 2 d).map fun b => .encBe16 (Machine.beWord 2 b)
  | .encBe32, d => (Machine.exactly 4 d).map fun b => .encBe32 (Machine.beWord 4 b)
  | .encBe64, d => (Machine.exactly 8 d).map fun b => .encBe64 (Machine.beWord 8 b)
  | .encLe16, d => (Machine.exactly 2 d).map fun b => .encLe16 (Machine.beWord 2 b)
  | .encLe32, d => (Machine.exactly 4 d).map fun b => .encLe32 (Machine.beWord 4 b)
  | .encLe64, d => (Machine.exactly 8 d).map fun b => .encLe64 (Machine.beWord 8 b)
  | .decBe16, d => (Machine.exactly 2 d).map .decBe16
  | .decBe32, d => (Machine.exactly 4 d).map .decBe32
  | .decBe64, d => (Machine.exactly 8 d).map .decBe64
  | .decLe16, d => (Machine.exactly 2 d).map .decLe16
  | .decLe32, d => (Machine.exactly 4 d).map .decLe32
  | .decLe64, d => (Machine.exactly 8 d).map .decLe64
  | .ipcsum, d => (Machine.exactly 20 d).map .ipcsum
  | .init, d => (Machine.exactly 4 d).map fun b => .init (Machine.beWord 4 b)
  | .buildHeader, d => decodeBuild d
  | .send, d => decodeSend d

/-- Decoding of a command packet: a command, or the reason it is none; a reserved opcode is reported
before a bad length (R105 to R107). -/
def decode : List Byte → Except DecodeError Instr
  | [] => .error .formatError
  | o :: d =>
    match opcodeOf o with
    | none => .error .opcodeError
    | some op =>
      match decodeOperands op d with
      | none => .error .formatError
      | some i => .ok i

/-- A length octet and the field it announces (R101, R102). -/
def encodePrefixed (f : List Byte) : List Byte := BitVec.ofNat 8 f.length :: f

/-- The operand octets of a command, in the order of its format (R101, R102). -/
def encodeOperands : Instr → List Byte
  | .encBe16 v => Machine.encodeBe 2 v
  | .encBe32 v => Machine.encodeBe 4 v
  | .encBe64 v => Machine.encodeBe 8 v
  | .encLe16 v => Machine.encodeBe 2 v
  | .encLe32 v => Machine.encodeBe 4 v
  | .encLe64 v => Machine.encodeBe 8 v
  | .decBe16 b => b.val
  | .decBe32 b => b.val
  | .decBe64 b => b.val
  | .decLe16 b => b.val
  | .decLe32 b => b.val
  | .decLe64 b => b.val
  | .ipcsum hdr => hdr.val
  | .init capacity => Machine.encodeBe 4 capacity
  | .buildHeader srcMac dstMac srcIp dstIp srcPort dstPort =>
      encodePrefixed srcMac ++ encodePrefixed dstMac ++ encodePrefixed srcIp ++ encodePrefixed dstIp
        ++ Machine.encodeBe 2 srcPort ++ Machine.encodeBe 2 dstPort
  | .send payload => Machine.encodeBe 4 (BitVec.ofNat 32 payload.length) ++ payload

/-- The command packet of a command (R100 to R104). -/
def encode (i : Instr) : List Byte := opcodeByte i.opcode :: encodeOperands i

/-- The packet length that the octets at hand call for, an octet not there counting as zero
(R102): a function of the opcode and, for formats B and S, of the length fields. -/
def packetLength (p : List Byte) : Nat :=
  match (opcodeOf (p.getD 0 0)).map formatOf with
  | none => 1
  | some .c16 => 3
  | some .c32 => 5
  | some .c64 => 9
  | some .k => 21
  | some .i => 5
  | some .b =>
    let sml := (p.getD 1 0).toNat
    let dml := (p.getD (2 + sml) 0).toNat
    let sil := (p.getD (3 + sml + dml) 0).toNat
    let dil := (p.getD (4 + sml + dml + sil) 0).toNat
    9 + sml + dml + sil + dil
  | some .s => 5 + Machine.decodeBe [p.getD 1 0, p.getD 2 0, p.getD 3 0, p.getD 4 0]

/-- The packet whose first `nbits / 8` octets are `w`'s, octet 0 its least significant, followed by
zero octets up to the length the packet calls for (log entry 16). -/
def tablePacket (nbits w : Nat) : List Byte :=
  let p := (List.range (nbits / 8)).map fun i => BitVec.ofNat 8 (w >>> (8 * i))
  p ++ List.replicate (packetLength p - p.length) 0

/-- What the decoder reads from the packet whose bits are `w`, as the opcode table numbers them
(log entry 16). -/
def decodeTableWord (nbits w : Nat) : Option Instr :=
  match decode (tablePacket nbits w) with
  | .ok i => some i
  | .error _ => none

end Sys2Proof
end

