-- ==== Sys2Proof/Machine/Constants.lean ====
section
/-! DEFINITION. The fixed constants of spec/00_scope.md R8 and the fixed parameters of R9. -/

namespace Sys2Proof.Machine

/-- ETH_HLEN (R8). -/
def ethHlen : Nat := 14

/-- IP_HLEN (R8). -/
def ipHlen : Nat := 20

/-- UDP_HLEN (R8). -/
def udpHlen : Nat := 8

/-- HDR_TOTAL = ETH_HLEN + IP_HLEN + UDP_HLEN = 42 (R8). -/
def hdrTotal : Nat := ethHlen + ipHlen + udpHlen

/-- ETHERTYPE_IPV4 (R8). -/
def ethertypeIpv4 : BitVec 16 := 0x0800

/-- IP_VIHL, version and header-length nibble pair (R8). -/
def ipVihl : Byte := 0x45

/-- IP_TOS (R8; spec/90_conflicts.md C4). -/
def ipTos : Byte := 0x00

/-- IP_FLAGS_FRAG, the fixed don't-fragment flags word (R8; spec/92_eei_decisions.md D13). -/
def ipFlagsFrag : BitVec 16 := 0x4000

/-- IP_TTL (R8). -/
def ipTtl : Byte := 64

/-- IP_PROTO_UDP (R8). -/
def ipProtoUdp : Byte := 17

/-- UDP_CSUM_DISABLED, the sentinel for "not computed" (R8). -/
def udpCsumDisabled : BitVec 16 := 0x0000

/-- The value the UDP checksum field is given in a mode; only one mode exists
(R9; spec/42_builder.md R195). -/
def udpCsumValue : UdpCsumMode → BitVec 16
  | .disabled => udpCsumDisabled

/-- MAC_LEN (R8). -/
def macLen : Nat := 6

/-- IP_ALEN (R8). -/
def ipAlen : Nat := 4

/-- ACC_BITS, the width of the checksum accumulator (R8). -/
def accBits : Nat := 32

/-- The least legal capacity: the headers must fit (spec/42_builder.md R182). -/
def capMin : Nat := 42

/-- CAP_MAX (R9; spec/92_eei_decisions.md D8). -/
def capMax : Nat := 65549

/-- POISON (R9; spec/92_eei_decisions.md D10). -/
def poison : Byte := 0xDD

end Sys2Proof.Machine
end

