-- ==== Sys2Proof/Machine/Flags.lean ====
section
/-! DEFINITION. The block has no flags or condition codes (spec/10_state.md R28). The one place where
carries are computed, the fold of the checksum accumulator, is here; nothing of it is latched
(spec/41_checksum.md R162). -/

namespace Sys2Proof.Machine

/-- The fold loop with a bound on its passes: while `acc >> 16` is not zero,
`acc = (acc mod 65536) + (acc >> 16)`. -/
def foldPasses : Nat → Nat → Nat
  | 0, acc => acc
  | k + 1, acc => if acc >>> 16 = 0 then acc else foldPasses k (acc % 65536 + (acc >>> 16))

/-- ones_fold(acc) (R162; its argument in `ones_sum` is the 32-bit accumulator, and R170 speaks of it
for every natural number). Every pass makes the accumulator smaller, so `acc` passes are always
enough for the loop to end (log entry 15). -/
def onesFold (acc : Nat) : Nat := foldPasses acc acc

/-- The 16-bit complement `0xFFFF - v` (spec/00_scope.md R11). -/
def complement16 (v : Nat) : BitVec 16 := BitVec.ofNat 16 (0xFFFF - v)

end Sys2Proof.Machine
end

