-- ==== Sys2Proof/Machine/State.lean ====
section
/-! DEFINITION. The state of one instance (spec/10_state.md R20), the configuration inputs (R30), the
traffic on the two ports (spec/00_scope.md R7, R14), and the reset state (R32). -/

namespace Sys2Proof.Machine

/-- STATE, the builder's state machine (spec/10_state.md R23). -/
inductive BuilderState where
  | uninit
  | ready
  | headerBuilt
  | sent
deriving DecidableEq, Repr

/-- The outcomes a response reports (spec/60_exceptions.md R241). `capacityError` is also the
source's PayloadTooLargeError (R245). -/
inductive Status where
  | ok
  | capacityError
  | transmitError
  | invalidAddressLength
  | sequenceError
  | paramError
  | opcodeError
  | formatError
deriving DecidableEq, Repr

/-- FB: the octets that hold a value, by address, addresses strictly rising. An address not listed
holds no value (spec/10_state.md R26; log entry 7). -/
abbrev Memory := List Host.Cell

/-- The canonical form of a memory: addresses strictly rising. No entry can equal what an unlisted
address reads as, since an unlisted address holds no value and an entry holds one. -/
abbrev Memory.wf (m : Memory) : Prop := List.Pairwise (fun c d => c.1 < d.1) m

/-- A TX request `(ifh, dst, data, n)` (spec/43_tx_handoff.md R221). -/
structure TxRequest where
  ifh  : IfHandle
  dst  : List Byte
  data : List Byte
  n    : Nat
deriving DecidableEq, Repr

/-- A TX response: FAIL, or a number of octets carried in 32 bits (spec/43_tx_handoff.md R223). -/
inductive TxResponse where
  | fail
  | count (r : BitVec 32)
deriving DecidableEq, Repr

/-- What the environment can do to the block: HOST presents a command packet or applies reset, TXC
answers a TX request (spec/00_scope.md R7; spec/43_tx_handoff.md R228). An answer names the request
it answers by its number, the first request issued being number 1 (log entry 10). -/
inductive Input where
  | command (packet : List Byte)
  | reset
  | txAnswer (request : Nat) (r : TxResponse)
deriving DecidableEq, Repr

/-- Reasons a step stops. Each stands for a use that the spec calls undefined and that its rules
exclude; no state that satisfies `Safety.Inv` raises one (log entry 8). -/
inductive Fault where
  /-- MemRead or MemWrite outside `[0, CAP)`, "defined only when `a + n <= CAP`" (spec/00_scope.md
  R12). Raised by `memRead` and `memWrite`. Safe. -/
  | addressOutsideBuffer
  /-- MemRead of an octet that holds no value (spec/10_state.md R26). Raised by `memRead`. Safe. -/
  | octetHoldsNoValue
  /-- CAP read while it is invalid, which R32 calls impossible. Raised by BUILD_HEADER and SEND. Safe. -/
  | capHoldsNoValue
  /-- `encode_be` asked for a value outside its domain (spec/40_codec.md R131;
  spec/93_implementation_defined.md U17). Raised by `writeField16`. Safe. -/
  | valueOutsideField
deriving DecidableEq, Repr

/-- Reasons a command is refused. -/
inductive Refusal where
  /-- Raised only by an arm of `exec` whose instruction has no meaning yet; no arm does. Safe. -/
  | notModelled (mnemonic : String)
  /-- Raised by every meaning for a command offered while PENDING = 1, when the spec has no exec or
  sendA step (spec/70_reset_and_hazards.md R291; spec/93_implementation_defined.md U23). `step` never
  raises it: it leaves such a command waiting in `inputs`. Safe (log entry 9). -/
  | commandWhilePending
deriving DecidableEq, Repr

/-- The whole state. `phase`, `cap`, `fb` and `pending` are the spec's STATE, CAP, FB and PENDING
(spec/10_state.md R20); `ipId` and `ifh` are the configuration inputs, which no step writes (R30, log
entry 4); the last three are the traffic on the ports (log entries 1 and 3). -/
structure State where
  /-- STATE (R23). -/
  phase      : BuilderState
  /-- CAP; `none` while it holds no value (R25). -/
  cap        : Option Nat
  /-- FB (R26). -/
  fb         : Memory
  /-- PENDING (R27). -/
  pending    : Bool
  /-- IP_ID, constant (R30). -/
  ipId       : BitVec 16
  /-- IFH, constant and opaque (R30). -/
  ifh        : IfHandle
  /-- What the environment will present, in order of arrival. -/
  inputs     : List Input
  /-- The response packets sent, oldest first (spec/00_scope.md R14). -/
  responses  : List (List Byte)
  /-- The TX requests issued, oldest first (spec/00_scope.md R14). -/
  txRequests : List TxRequest
deriving DecidableEq, Repr

/-- The machine right after reset (spec/10_state.md R32): UNINIT, CAP invalid, no FB, PENDING 0. The
configuration inputs hold the spec's reference IP_ID and a token (log entries 4, 5); nothing has been
presented or sent (log entries 1, 3). -/
def State.reset : State where
  phase := .uninit
  cap := none
  fb := []
  pending := false
  ipId := Config.refIpId
  ifh := ⟨0⟩
  inputs := []
  responses := []
  txRequests := []

end Sys2Proof.Machine
end

