-- ==== Sys2Proof/Machine/Ops.lean ====
section
/-! DEFINITION. The named operations: reading and writing FB (spec/00_scope.md R12), answering a
command (spec/30_encoding.md R110), ending it with an error (spec/60_exceptions.md R240, R241: the
block's whole exception entry; there is no return from it, R253), issuing a TX request
(spec/43_tx_handoff.md R221), and reset (spec/70_reset_and_hazards.md R280). -/

namespace Sys2Proof.Machine

/-- The three outcomes of this machine's step. -/
abbrev Result := Host.Outcome State Fault Refusal

/-! ### The frame buffer -/

/-- `FB[a]`: the octet at address `a`, or none where it holds no value (R12, R26). -/
def readOctet : Memory → Nat → Option Byte
  | [], _ => none
  | (k, v) :: m, a => if k = a then some v else readOctet m a

/-- The `n` octets from address `a` up, or none where one of them holds no value; a walk along the
rising addresses. -/
def readOctets : Memory → Nat → Nat → Option (List Byte)
  | _, _, 0 => some []
  | [], _, _ + 1 => none
  | (k, v) :: m, a, n + 1 =>
    if k < a then readOctets m a (n + 1)
    else if k = a then (readOctets m (a + 1) n).map (v :: ·)
    else none

/-- Consecutive cells from address `a` up holding the given octets. -/
def cellsAt : Nat → List Byte → Memory
  | _, [] => []
  | a, b :: bs => (a, b) :: cellsAt (a + 1) bs

/-- The memory with `bs` at the addresses from `a` up and nothing else changed: the cells below, the
new cells, the cells above, along the rising addresses. -/
def writeOctets (m : Memory) (a : Nat) (bs : List Byte) : Memory :=
  m.takeWhile (fun c => c.1 < a) ++ cellsAt a bs ++ m.dropWhile (fun c => c.1 < a + bs.length)

/-- The range of `n` octets from `a` lies inside FB: `a + n <= CAP` (R12). FB does not exist while
CAP holds no value. -/
def inBuffer (cap : Option Nat) (a n : Nat) : Bool :=
  match cap with
  | none => false
  | some c => decide (a + n ≤ c)

theorem readOctets_length {m : Memory} {a n : Nat} {bs : List Byte}
    (h : readOctets m a n = some bs) : bs.length = n := by
  induction m generalizing a n bs with
  | nil => cases n <;> simp_all [readOctets]
  | cons c m ih =>
    obtain ⟨k, v⟩ := c
    cases n with
    | zero => simp_all [readOctets]
    | succ n =>
      simp only [readOctets] at h
      split at h
      · exact ih h
      · split at h
        · simp only [Option.map_eq_some_iff] at h
          obtain ⟨rest, hr, rfl⟩ := h
          simp [ih hr]
        · cases h

/-- MemRead(a, n) (R12). -/
def memRead (s : State) (a n : Nat) : Except Fault (Octets n) :=
  if inBuffer s.cap a n then
    match h : readOctets s.fb a n with
    | some bs => .ok ⟨bs, readOctets_length h⟩
    | none => .error .octetHoldsNoValue
  else .error .addressOutsideBuffer

/-- MemWrite(a, len(bs), bs) (R12). -/
def memWrite (s : State) (a : Nat) (bs : List Byte) : Except Fault State :=
  if inBuffer s.cap a bs.length then .ok { s with fb := writeOctets s.fb a bs }
  else .error .addressOutsideBuffer

/-- A natural number written as a big-endian 16-bit field at address `a`: MemWrite(a, 2,
encode_be(v, 16)), defined when `v < 2^16` (R12; spec/20_memory.md R54). -/
def writeField16 (s : State) (a v : Nat) : Except Fault State :=
  if v < 2 ^ 16 then memWrite s a (encodeBe 2 (BitVec.ofNat 16 v)) else .error .valueOutsideField

/-! ### Responses -/

/-- The status octet (spec/60_exceptions.md R241). -/
def statusCode : Status → Byte
  | .ok => 0x00
  | .capacityError => 0x01
  | .transmitError => 0x02
  | .invalidAddressLength => 0x03
  | .sequenceError => 0x80
  | .paramError => 0x81
  | .opcodeError => 0x82
  | .formatError => 0x83

/-- The number of a value of STATE, which no command exposes (spec/10_state.md R23). -/
def phaseNumber : BuilderState → Nat
  | .uninit => 0
  | .ready => 1
  | .headerBuilt => 2
  | .sent => 3

/-- A response packet: the status octet and the result (spec/30_encoding.md R110). -/
def responsePacket (st : Status) (result : List Byte) : List Byte := statusCode st :: result

/-- One response sent on the command port (spec/30_encoding.md R100, R110). -/
def respond (st : Status) (result : List Byte) (s : State) : State :=
  { s with responses := s.responses ++ [responsePacket st result] }

/-- `return r`: the command ends with status OK and its result (R12). -/
def answerOk (result : List Byte) (s : State) : Result := .next (respond .ok result s)

/-- `raise E`: the command ends with error `E`, no result, and no change but those made before
(R12; spec/60_exceptions.md R240, R241, R251). -/
def raiseError (e : Status) (s : State) : Result := .next (respond e [] s)

/-- A command is taken only while PENDING = 0 (spec/70_reset_and_hazards.md R291; log entry 9). -/
def whenTaken (s : State) (k : Result) : Result :=
  if s.pending then .refused .commandWhilePending else k

/-- What a command does after a sequence of FB accesses. -/
def afterAccess {α : Type} (x : Except Fault α) (k : α → Result) : Result :=
  match x with
  | .ok v => k v
  | .error f => .fault f

/-- The status that answers a packet that is no command (spec/60_exceptions.md R248). -/
def decodeStatus : DecodeError → Status
  | .opcodeError => .opcodeError
  | .formatError => .formatError

/-! ### The TX port -/

/-- TxRequest(IFH, dst, data, n) issued and PENDING set (spec/42_builder.md R196;
spec/43_tx_handoff.md R221). -/
def issueTxRequest (dst data : List Byte) (n : Nat) (s : State) : State :=
  { s with
    txRequests := s.txRequests ++ [{ ifh := s.ifh, dst := dst, data := data, n := n }]
    pending := true }

/-- An answer to request number `request` is the one SEND waits for: a request is outstanding and it
is the last one issued (spec/43_tx_handoff.md R222; log entry 10). -/
def answersPending (request : Nat) (s : State) : Bool :=
  s.pending && decide (request = s.txRequests.length)

/-! ### Reset and the arrival of inputs -/

/-- Reset (spec/70_reset_and_hazards.md R280, R281): UNINIT, CAP invalid, FB discarded, PENDING 0. The
configuration inputs stay; what was sent on the ports stays sent. -/
def applyReset (s : State) : State :=
  { s with phase := .uninit, cap := none, fb := [], pending := false }

/-- The input that is taken next, and the inputs left. While PENDING = 1 the command port takes
nothing: commands stay where they are and the first reset or TX answer is taken
(spec/70_reset_and_hazards.md R291; log entry 11). -/
def nextInput : Bool → List Input → Option (Input × List Input)
  | _, [] => none
  | false, i :: rest => some (i, rest)
  | true, .command p :: rest =>
    (nextInput true rest).map fun (i, left) => (i, .command p :: left)
  | true, .reset :: rest => some (.reset, rest)
  | true, .txAnswer q r :: rest => some (.txAnswer q r, rest)

end Sys2Proof.Machine
end

