-- ==== Sys2Proof/Machine/Checksum.lean ====
section
/-! DEFINITION. The IPv4 header checksum calculator and its command (spec/41_checksum.md R160 to
R168). Its domain is exactly the 20-octet header (R172). -/

namespace Sys2Proof.Machine

/-- ip_words(h): word `k` is `decode_be(h[2k:+2])`, `k = 0 .. 9` (R161). -/
def ipWords (h : Octets 20) : List Nat :=
  (List.range 10).map fun k => decodeBe ((h.val.drop (2 * k)).take 2)

/-- The words added into an accumulator of ACC_BITS bits, from 0 (R163; spec/10_state.md R31). -/
def accumulate (ws : List Nat) : BitVec accBits :=
  ws.foldl (fun acc w => acc + BitVec.ofNat accBits w) 0

/-- ones_sum(h), the folded sum of the ten words (R163). -/
def onesSum (h : Octets 20) : Nat := onesFold (accumulate (ipWords h)).toNat

/-- The header with the checksum word, octets 10 and 11, replaced (R164, R165). -/
def withChecksumWord (w : Octets 2) (h : Octets 20) : Octets 20 :=
  ⟨h.val.take 10 ++ w.val ++ h.val.drop 12, by
    have := h.property
    have := w.property
    simp only [List.length_append, List.length_take, List.length_drop]
    omega⟩

/-- ip_checksum(h): the checksum word zeroed first, then the complement of the sum (R164). -/
def ipChecksum (h : Octets 20) : BitVec 16 :=
  complement16 (onesSum (withChecksumWord ⟨[0x00, 0x00], rfl⟩ h))

/-- ip_verify(h): the same without zeroing the checksum word (R165). A function of the spec, not a
command. -/
def ipVerify (h : Octets 20) : BitVec 16 := complement16 (onesSum h)

/-- IPCSUM (R166). -/
def execIpcsum (hdr : Octets 20) (s : State) : Result :=
  whenTaken s (answerOk (encodeBe 2 (ipChecksum hdr)) s)

end Sys2Proof.Machine
end

