-- ==== Sys2Proof/Machine/Frame.lean ====
section
/-! DEFINITION. The wire format of the frame, octet by octet: the serialise and deserialise functions
of the three headers (spec/30_encoding.md R85 to R87) and the frame in closed form (R80, R88). They are
functions of the spec, not commands; the builder itself writes FB field by field
(Machine/Builder.lean), as its rules say. -/

namespace Sys2Proof.Machine

/-- `b[i:+n]` of a header of `k` octets, in bounds (spec/00_scope.md R10). -/
def slice {k : Nat} (h : Octets k) (i n : Nat) (hb : i + n ≤ k) : Octets n :=
  ⟨(h.val.drop i).take n, by
    have := h.property
    simp only [List.length_take, List.length_drop]
    omega⟩

/-- `b[i]` of a header of `k` octets, in bounds (spec/00_scope.md R10). -/
def octet {k : Nat} (h : Octets k) (i : Nat) (hb : i < k) : Byte :=
  h.val[i]'(by have := h.property; omega)

/-- The fields of an Ethernet header (R81). -/
structure EthFields where
  dstMac : Octets 6
  srcMac : Octets 6
  ftype  : BitVec 16
deriving DecidableEq, Repr

/-- The fields of an IPv4 header without options (R82). -/
structure Ipv4Fields where
  vihl   : Byte
  tos    : Byte
  totlen : BitVec 16
  id     : BitVec 16
  ffo    : BitVec 16
  ttl    : Byte
  proto  : Byte
  csum   : BitVec 16
  srcIp  : Octets 4
  dstIp  : Octets 4
deriving DecidableEq, Repr

/-- The fields of a UDP header (R83). -/
structure UdpFields where
  sport : BitVec 16
  dport : BitVec 16
  ulen  : BitVec 16
  ucsum : BitVec 16
deriving DecidableEq, Repr

theorem encodeBe_length (n : Nat) (v : BitVec (8 * n)) : (encodeBe n v).length = n := by
  simp [encodeBe]

/-- eth_write (R85). -/
def ethWrite (f : EthFields) : Octets 14 :=
  ⟨f.dstMac.val ++ f.srcMac.val ++ encodeBe 2 f.ftype, by
    have h1 := f.dstMac.property
    have h2 := f.srcMac.property
    simp [encodeBe_length, h1, h2]⟩

/-- eth_read (R85). -/
def ethRead (h : Octets 14) : EthFields where
  dstMac := slice h 0 6 (by decide)
  srcMac := slice h 6 6 (by decide)
  ftype := beWord 2 (slice h 12 2 (by decide))

/-- ipv4_write (R86). -/
def ipv4Write (f : Ipv4Fields) : Octets 20 :=
  ⟨[f.vihl] ++ [f.tos] ++ encodeBe 2 f.totlen ++ encodeBe 2 f.id ++ encodeBe 2 f.ffo
      ++ [f.ttl] ++ [f.proto] ++ encodeBe 2 f.csum ++ f.srcIp.val ++ f.dstIp.val, by
    have h1 := f.srcIp.property
    have h2 := f.dstIp.property
    simp [encodeBe_length, h1, h2]⟩

/-- ipv4_read (R86). -/
def ipv4Read (h : Octets 20) : Ipv4Fields where
  vihl := octet h 0 (by decide)
  tos := octet h 1 (by decide)
  totlen := beWord 2 (slice h 2 2 (by decide))
  id := beWord 2 (slice h 4 2 (by decide))
  ffo := beWord 2 (slice h 6 2 (by decide))
  ttl := octet h 8 (by decide)
  proto := octet h 9 (by decide)
  csum := beWord 2 (slice h 10 2 (by decide))
  srcIp := slice h 12 4 (by decide)
  dstIp := slice h 16 4 (by decide)

/-- udp_write (R87). -/
def udpWrite (f : UdpFields) : Octets 8 :=
  ⟨encodeBe 2 f.sport ++ encodeBe 2 f.dport ++ encodeBe 2 f.ulen ++ encodeBe 2 f.ucsum, by
    simp [encodeBe_length]⟩

/-- udp_read (R87). -/
def udpRead (h : Octets 8) : UdpFields where
  sport := beWord 2 (slice h 0 2 (by decide))
  dport := beWord 2 (slice h 2 2 (by decide))
  ulen := beWord 2 (slice h 4 2 (by decide))
  ucsum := beWord 2 (slice h 6 2 (by decide))

/-- ip_total_length = IP_HLEN + UDP_HLEN + L (R84). -/
def ipTotalLength (l : Nat) : Nat := ipHlen + udpHlen + l

/-- udp_length = UDP_HLEN + L (R84). -/
def udpLength (l : Nat) : Nat := udpHlen + l

/-- frame_length = ETH_HLEN + IP_HLEN + UDP_HLEN + L (R84). -/
def frameLength (l : Nat) : Nat := ethHlen + ipHlen + udpHlen + l

/-- What the caller supplies to one frame (R88). -/
structure FrameParams where
  srcMac  : Octets 6
  dstMac  : Octets 6
  srcIp   : Octets 4
  dstIp   : Octets 4
  srcPort : BitVec 16
  dstPort : BitVec 16
deriving DecidableEq, Repr

/-- The IPv4 header of the frame for a payload of `l` octets, with a given checksum field (R88). -/
def frameIpv4 (ipId : BitVec 16) (p : FrameParams) (l : Nat) (csum : BitVec 16) : Octets 20 :=
  ipv4Write
    { vihl := ipVihl, tos := ipTos, totlen := BitVec.ofNat 16 (ipTotalLength l), id := ipId
      ffo := ipFlagsFrag, ttl := ipTtl, proto := ipProtoUdp, csum := csum
      srcIp := p.srcIp, dstIp := p.dstIp }

/-- The frame in closed form (R80, R88). -/
def frame (ipId : BitVec 16) (p : FrameParams) (payload : List Byte) : List Byte :=
  let l := payload.length
  (ethWrite { dstMac := p.dstMac, srcMac := p.srcMac, ftype := ethertypeIpv4 }).val
    ++ (frameIpv4 ipId p l (ipChecksum (frameIpv4 ipId p l 0))).val
    ++ (udpWrite { sport := p.srcPort, dport := p.dstPort, ulen := BitVec.ofNat 16 (udpLength l)
                   ucsum := udpCsumValue Config.udpCsumMode }).val
    ++ payload

end Sys2Proof.Machine
end

