-- ==== Sys2Proof/Machine/Builder.lean ====
section
/-! DEFINITION. The frame builder's three commands (spec/42_builder.md). `execSend` is phase A of SEND;
phase B, which consumes the TX response, is `sendPhaseB`, run by `step` when the response arrives. -/

namespace Sys2Proof.Machine

/-- The capacity is legal: 42 to 65549 (R182). -/
def capacityLegal (c : Nat) : Bool := decide (capMin ≤ c) && decide (c ≤ capMax)

/-- INIT (R181, R206). FB gets CAP octets that hold no value (spec/10_state.md R26). -/
def execInit (capacity : BitVec 32) (s : State) : Result :=
  whenTaken s <|
    if s.phase ≠ .uninit then raiseError .sequenceError s
    else if capacityLegal capacity.toNat then
      answerOk [] { s with cap := some capacity.toNat, fb := [], phase := .ready }
    else raiseError .paramError s

/-- The poison fill and the header writes of BUILD_HEADER, in the order of R184 (R186, R187). The
writes of one step may be made in any order that gives the same FB (spec/00_scope.md R16). -/
def writeHeaders (srcMac dstMac srcIp dstIp : List Byte) (srcPort dstPort : BitVec 16) (cap : Nat)
    (s : State) : Except Fault State := do
  let s ← memWrite s 0 (List.replicate cap poison)
  let s ← memWrite s 0 dstMac
  let s ← memWrite s 6 srcMac
  let s ← memWrite s 12 (encodeBe 2 ethertypeIpv4)
  let s ← memWrite s 14 [ipVihl]
  let s ← memWrite s 15 [ipTos]
  let s ← memWrite s 18 (encodeBe 2 s.ipId)
  let s ← memWrite s 20 (encodeBe 2 ipFlagsFrag)
  let s ← memWrite s 22 [ipTtl]
  let s ← memWrite s 23 [ipProtoUdp]
  let s ← memWrite s 26 srcIp
  let s ← memWrite s 30 dstIp
  let s ← memWrite s 34 (encodeBe 2 srcPort)
  memWrite s 36 (encodeBe 2 dstPort)

/-- The four address lengths are the header's field widths (R185). -/
def addressLengthsLegal (srcMac dstMac srcIp dstIp : List Byte) : Bool :=
  decide (srcMac.length = macLen) && decide (dstMac.length = macLen)
    && decide (srcIp.length = ipAlen) && decide (dstIp.length = ipAlen)

/-- BUILD_HEADER (R184). -/
def execBuildHeader (srcMac dstMac srcIp dstIp : List Byte) (srcPort dstPort : BitVec 16)
    (s : State) : Result :=
  whenTaken s <|
    if s.phase = .uninit then raiseError .sequenceError s
    else if addressLengthsLegal srcMac dstMac srcIp dstIp then
      match s.cap with
      | none => .fault .capHoldsNoValue
      | some cap =>
        afterAccess (writeHeaders srcMac dstMac srcIp dstIp srcPort dstPort cap s) fun t =>
          answerOk [] { t with phase := .headerBuilt }
    else raiseError .invalidAddressLength s

/-- Effects (1) to (5) of SEND: payload, total length, checksum, UDP length, UDP checksum, in that
order (R191 to R195). -/
def finalizeFrame (payload : List Byte) (s : State) : Except Fault State := do
  let s ← memWrite s 42 payload
  let s ← writeField16 s 16 (ipTotalLength payload.length)
  let s ← memWrite s 24 [0x00, 0x00]
  let hdr ← memRead s 14 20
  let s ← memWrite s 24 (encodeBe 2 (ipChecksum hdr))
  let s ← writeField16 s 38 (udpLength payload.length)
  memWrite s 40 (encodeBe 2 (udpCsumValue Config.udpCsumMode))

/-- Effects (6) and (7) of SEND: the frame length, and the octets `[0, frame_length)` handed to TXC
with the destination MAC in FB (R196). -/
def handOff (payload : List Byte) (s : State) : Except Fault State := do
  let dst ← memRead s 0 6
  let data ← memRead s 0 (frameLength payload.length)
  .ok (issueTxRequest dst.val data.val (frameLength payload.length) s)

/-- The builder accepts SEND in this STATE (spec/10_state.md R24). -/
def headerExists (p : BuilderState) : Bool := decide (p = .headerBuilt) || decide (p = .sent)

/-- SEND phase A (R189, R190). `L > CAP - 42` is written `42 + L > CAP` (log entry 14). -/
def execSend (payload : List Byte) (s : State) : Result :=
  whenTaken s <|
    if headerExists s.phase then
      match s.cap with
      | none => .fault .capHoldsNoValue
      | some cap =>
        if hdrTotal + payload.length > cap then raiseError .capacityError s
        else
          afterAccess (finalizeFrame payload s) fun t =>
            afterAccess (handOff payload t) fun u => .next u
    else raiseError .sequenceError s

/-- SEND phase B (R189, R197 to R199): FAIL or 0 is TransmitError, any other count is returned
unchanged and STATE becomes SENT. -/
def sendPhaseB (r : TxResponse) (s : State) : Result :=
  match r with
  | .fail => raiseError .transmitError { s with pending := false }
  | .count n =>
    if n = 0 then raiseError .transmitError { s with pending := false }
    else answerOk (encodeBe 4 n) { s with pending := false, phase := .sent }

/-- A TX response arrives: phase B where SEND waits for it; otherwise it is late, or answers nothing
outstanding, and is discarded (spec/70_reset_and_hazards.md R281; log entry 10). -/
def takeTxAnswer (request : Nat) (r : TxResponse) (s : State) : Result :=
  if answersPending request s then sendPhaseB r s else .next s

end Sys2Proof.Machine
end

