-- ==== Sys2Proof/Machine/Codec.lean ====
section
/-! DEFINITION. The twelve codec commands (spec/40_codec.md R133 to R144, R150): pure, accepted in
every STATE, never failing. A decoded value is answered most significant octet first
(spec/30_encoding.md R110). -/

namespace Sys2Proof.Machine

/-- ENC_BE16 (R133). -/
def execEncBe16 (v : BitVec 16) (s : State) : Result :=
  whenTaken s (answerOk (encodeBe 2 v) s)

/-- ENC_BE32 (R134). -/
def execEncBe32 (v : BitVec 32) (s : State) : Result :=
  whenTaken s (answerOk (encodeBe 4 v) s)

/-- ENC_BE64 (R135). -/
def execEncBe64 (v : BitVec 64) (s : State) : Result :=
  whenTaken s (answerOk (encodeBe 8 v) s)

/-- ENC_LE16 (R139). -/
def execEncLe16 (v : BitVec 16) (s : State) : Result :=
  whenTaken s (answerOk (encodeLe 2 v) s)

/-- ENC_LE32 (R140). -/
def execEncLe32 (v : BitVec 32) (s : State) : Result :=
  whenTaken s (answerOk (encodeLe 4 v) s)

/-- ENC_LE64 (R141). -/
def execEncLe64 (v : BitVec 64) (s : State) : Result :=
  whenTaken s (answerOk (encodeLe 8 v) s)

/-- DEC_BE16 (R136). -/
def execDecBe16 (b : Octets 2) (s : State) : Result :=
  whenTaken s (answerOk (encodeBe 2 (beWord 2 b)) s)

/-- DEC_BE32 (R137). -/
def execDecBe32 (b : Octets 4) (s : State) : Result :=
  whenTaken s (answerOk (encodeBe 4 (beWord 4 b)) s)

/-- DEC_BE64 (R138). -/
def execDecBe64 (b : Octets 8) (s : State) : Result :=
  whenTaken s (answerOk (encodeBe 8 (beWord 8 b)) s)

/-- DEC_LE16 (R142). -/
def execDecLe16 (b : Octets 2) (s : State) : Result :=
  whenTaken s (answerOk (encodeBe 2 (leWord 2 b)) s)

/-- DEC_LE32 (R143). -/
def execDecLe32 (b : Octets 4) (s : State) : Result :=
  whenTaken s (answerOk (encodeBe 4 (leWord 4 b)) s)

/-- DEC_LE64 (R144). -/
def execDecLe64 (b : Octets 8) (s : State) : Result :=
  whenTaken s (answerOk (encodeBe 8 (leWord 8 b)) s)

end Sys2Proof.Machine
end

