-- ==== Sys2Proof/Machine/Dispatch.lean ====
section
/-! DEFINITION. One arm per command, each one call of its meaning (the exec and sendA steps of
spec/00_scope.md R14). -/

namespace Sys2Proof.Machine

def exec (i : Instr) (s : State) : Host.Outcome State Fault Refusal :=
  match i with
  | .encBe16 v => Sys2Proof.Machine.execEncBe16 v s
  | .encBe32 v => Sys2Proof.Machine.execEncBe32 v s
  | .encBe64 v => Sys2Proof.Machine.execEncBe64 v s
  | .encLe16 v => Sys2Proof.Machine.execEncLe16 v s
  | .encLe32 v => Sys2Proof.Machine.execEncLe32 v s
  | .encLe64 v => Sys2Proof.Machine.execEncLe64 v s
  | .decBe16 b => Sys2Proof.Machine.execDecBe16 b s
  | .decBe32 b => Sys2Proof.Machine.execDecBe32 b s
  | .decBe64 b => Sys2Proof.Machine.execDecBe64 b s
  | .decLe16 b => Sys2Proof.Machine.execDecLe16 b s
  | .decLe32 b => Sys2Proof.Machine.execDecLe32 b s
  | .decLe64 b => Sys2Proof.Machine.execDecLe64 b s
  | .ipcsum hdr => Sys2Proof.Machine.execIpcsum hdr s
  | .init capacity => Sys2Proof.Machine.execInit capacity s
  | .buildHeader srcMac dstMac srcIp dstIp srcPort dstPort => Sys2Proof.Machine.execBuildHeader srcMac dstMac srcIp dstIp srcPort dstPort s
  | .send payload => Sys2Proof.Machine.execSend payload s

end Sys2Proof.Machine
end

