-- ==== Sys2Proof/Machine/Step.lean ====
section
/-! DEFINITION. One step of the machine: the next input the ports take (spec/00_scope.md R14), or,
where there is none, waiting (spec/70_reset_and_hazards.md R282, R291, R293; log entry 12). -/

namespace Sys2Proof.Machine

/-- A command packet is decoded and executed, or answered with the decoder's error
(spec/30_encoding.md R105 to R107; spec/60_exceptions.md R248). -/
def runPacket (p : List Byte) (s : State) : Host.Outcome State Fault Refusal :=
  match Sys2Proof.decode p with
  | .ok i => exec i s
  | .error e => raiseError (decodeStatus e) s

/-- One step: the input taken is removed from `inputs`; a command is run, a reset applied, a TX answer
consumed; without an input to take the machine waits unchanged. -/
def step (s : State) : Host.Outcome State Fault Refusal :=
  match nextInput s.pending s.inputs with
  | none => .next s
  | some (.command p, left) => runPacket p { s with inputs := left }
  | some (.reset, left) => .next (applyReset { s with inputs := left })
  | some (.txAnswer request r, left) => takeTxAnswer request r { s with inputs := left }

/-- `s` with HOST presenting, as the next input the command port takes, the packet whose bits are `w`
(log entries 2 and 16): the packet at the front, and PENDING = 0, without which the port takes
nothing. -/
def State.withFetchWord (s : State) (nbits w : Nat) : State :=
  { s with inputs := .command (Sys2Proof.tablePacket nbits w) :: s.inputs, pending := false }

end Sys2Proof.Machine
end

