-- ==== Sys2Proof/Safety.lean ====
section
/-! DEFINITION. What claims call a good state: the invariants of spec/10_state.md R24 to R27, R36 and
spec/20_memory.md R61, and the finished header of R36 (d) and spec/70_reset_and_hazards.md R285. -/

namespace Sys2Proof.Safety

open Sys2Proof.Machine

/-- The octets the last successful BUILD_HEADER wrote as constants still stand (spec/10_state.md
R36 (b); spec/42_builder.md R187). -/
def HeaderConstants (s : State) : Prop :=
  readOctets s.fb 12 4 = some [0x08, 0x00, 0x45, 0x00] ∧
  readOctets s.fb 18 6 = some (encodeBe 2 s.ipId ++ [0x40, 0x00, 0x40, 0x11])

/-- The invariant of the block. -/
structure Inv (s : State) : Prop where
  /-- FB is in canonical form. -/
  memory : Memory.wf s.fb
  /-- Every octet that holds a value has an address below CAP (spec/20_memory.md R50). -/
  extent : ∀ a b, readOctet s.fb a = some b → ∃ c, s.cap = some c ∧ a < c
  /-- CAP holds no value exactly in UNINIT (spec/10_state.md R25). -/
  capacity : s.phase = .uninit ↔ s.cap = none
  /-- A valid CAP is 42 to 65549 (spec/10_state.md R25). -/
  legal : ∀ c, s.cap = some c → 42 ≤ c ∧ c ≤ 65549
  /-- In HEADER_BUILT and SENT every octet of FB holds a value (spec/10_state.md R36 (a)). -/
  written : headerExists s.phase = true → ∀ c, s.cap = some c → ∀ a, a < c →
    ∃ b, readOctet s.fb a = some b
  /-- Before the first BUILD_HEADER no octet does (spec/10_state.md R26). -/
  unwritten : headerExists s.phase = false → s.fb = []
  /-- In HEADER_BUILT and SENT the header constants stand (spec/10_state.md R36 (b)). -/
  constants : headerExists s.phase = true → HeaderConstants s
  /-- A request is outstanding only where a header exists (spec/10_state.md R24, R27). -/
  pendingPhase : s.pending = true → headerExists s.phase = true

/-- Commands that HOST presented and the port does not take now: none while PENDING = 0, only commands
while PENDING = 1 (spec/70_reset_and_hazards.md R291). -/
def HeldBack (s : State) (held : List Input) : Prop :=
  (s.pending = false → held = []) ∧ ∀ j ∈ held, ∃ p, j = .command p

/-- FB holds a finished header (spec/10_state.md R36 (d)): the length fields agree with each other and
with a payload that fits, the UDP checksum is the sentinel, and the IPv4 checksum verifies. -/
def FinishedHeader (s : State) : Prop :=
  ∃ l c hdr, s.cap = some c ∧ 42 + l ≤ c ∧
    readOctets s.fb 16 2 = some (encodeBe 2 (BitVec.ofNat 16 (28 + l))) ∧
    readOctets s.fb 38 4 = some (encodeBe 2 (BitVec.ofNat 16 (8 + l)) ++ [0x00, 0x00]) ∧
    memRead s 14 20 = .ok hdr ∧ ipVerify hdr = 0

/-- The last TX request carries the octets of FB as they now are (spec/20_memory.md R63). -/
def LastRequestMatches (s : State) : Prop :=
  ∃ before r, s.txRequests = before ++ [r] ∧ r.ifh = s.ifh ∧ r.n = r.data.length ∧ 42 ≤ r.n ∧
    readOctets s.fb 0 6 = some r.dst ∧ readOctets s.fb 0 r.n = some r.data

/-- The invariant with the finished frame: after a successful SEND, and while one is pending, FB holds
a finished header (spec/70_reset_and_hazards.md R285); while one is pending FB is what TXC was handed
(spec/20_memory.md R63). -/
structure FrameInv (s : State) : Prop where
  inv : Inv s
  finished : s.phase = .sent ∨ s.pending = true → FinishedHeader s
  handed : s.pending = true → LastRequestMatches s

end Sys2Proof.Safety
end

