-- ==== Sys2Proof/Certificates/Slice0/Obligations.lean ====
section
/-! DEFINITION. The statements for the provers, each formalising rules of spec/. Nothing is proved
here. `{ s with responses := s.responses ++ [q] }` is `s` with the response packet `q` sent and nothing
else changed. -/

open Sys2Proof Sys2Proof.Machine Sys2Proof.Safety

/-! ### Encoding (spec/30_encoding.md part B) -/

/-- Packets written out from R102 and R104 decode to the commands they stand for. -/
def Obligations.SpecPacketsDecode : Prop :=
  decode [0x16, 0x0A, 0x0B, 0x0C, 0x01] = .ok (.encLe32 0x0A0B0C01) ∧
  decode [0x1D, 0xCD, 0xAB] = .ok (.decLe16 ⟨[0xCD, 0xAB], rfl⟩) ∧
  decode [0x30, 0x00, 0x01, 0x00, 0x0D] = .ok (.init 65549) ∧
  decode [0x31, 0x06, 0x02, 0x11, 0x22, 0x33, 0x44, 0x55, 0x06, 0xFF, 0xFF, 0xFF, 0xFF, 0xFF, 0xFF,
      0x04, 0x0A, 0x0B, 0x0C, 0x01, 0x04, 0x0A, 0x0B, 0x0C, 0xFF, 0x30, 0x39, 0x7D, 0x02]
    = .ok (.buildHeader [0x02, 0x11, 0x22, 0x33, 0x44, 0x55] [0xFF, 0xFF, 0xFF, 0xFF, 0xFF, 0xFF]
        [0x0A, 0x0B, 0x0C, 0x01] [0x0A, 0x0B, 0x0C, 0xFF] 12345 32002) ∧
  decode [0x32, 0x00, 0x00, 0x00, 0x02, 0x68, 0x69] = .ok (.send [0x68, 0x69])

/-- The structure of the opcode octet (R103): in the codec family bit 3 is the direction, bit 2 the byte
order, bits 1 to 0 the width code, and width code 00 is reserved. -/
def Obligations.CodecOpcodeStructure : Prop :=
  (∀ o op, opcodeOf o = some op →
    (o.extractLsb' 4 4 = 0x1 ∨ o.extractLsb' 4 4 = 0x2 ∨ o.extractLsb' 4 4 = 0x3)) ∧
  ∀ o : Byte, o.extractLsb' 4 4 = 0x1 →
    opcodeOf o =
      match o.getLsbD 3, o.getLsbD 2, (o.extractLsb' 0 2).toNat with
      | false, false, 1 => some .encBe16
      | false, false, 2 => some .encBe32
      | false, false, 3 => some .encBe64
      | false, true, 1 => some .encLe16
      | false, true, 2 => some .encLe32
      | false, true, 3 => some .encLe64
      | true, false, 1 => some .decBe16
      | true, false, 2 => some .decBe32
      | true, false, 3 => some .decBe64
      | true, true, 1 => some .decLe16
      | true, true, 2 => some .decLe32
      | true, true, 3 => some .decLe64
      | _, _, _ => none

/-- Decoding the packet of a well-formed command gives the command back (R101, R102, R105). -/
def Obligations.DecodeOfEncode : Prop :=
  ∀ i : Instr, i.WellFormed = true → decode (encode i) = .ok i

/-- A packet that decodes to a command is that command's packet, and the command is well formed: no
second packet, and no octet more or less, decodes to it (R105). -/
def Obligations.EncodeOfDecode : Prop :=
  ∀ (p : List Byte) (i : Instr), decode p = .ok i → encode i = p ∧ i.WellFormed = true

/-- Reserved opcodes (R106): exactly the listed values are answered OpcodeError, whatever follows, with
no result and no other change. -/
def Obligations.ReservedOpcodesAnswered : Prop :=
  ∀ (o : Byte) (rest : List Byte),
    (decode (o :: rest) = .error .opcodeError ↔
      o.toNat ≤ 0x10 ∨ o.toNat = 0x14 ∨ o.toNat = 0x18 ∨ o.toNat = 0x1C ∨
        (0x21 ≤ o.toNat ∧ o.toNat ≤ 0x2F) ∨ 0x33 ≤ o.toNat) ∧
    ∀ (s : State) (left : List Input), s.pending = false → s.inputs = .command (o :: rest) :: left →
      decode (o :: rest) = .error .opcodeError →
      step s = .next { s with inputs := left, responses := s.responses ++ [[0x82]] }

/-- Malformed packets (R107): the empty packet, and exactly the packets with a known opcode whose length
is not the one R102 gives their opcode and length fields, are answered FormatError, with no result and
no other change. -/
def Obligations.MalformedPacketsAnswered : Prop :=
  ∀ p : List Byte,
    (decode p = .error .formatError ↔
      p = [] ∨ ((opcodeOf (p.getD 0 0)).isSome = true ∧ p.length ≠ packetLength p)) ∧
    ∀ (s : State) (left : List Input), s.pending = false → s.inputs = .command p :: left →
      decode p = .error .formatError →
      step s = .next { s with inputs := left, responses := s.responses ++ [[0x83]] }

/-! ### The byte-order codec (spec/40_codec.md) -/

/-- ENC_BE16, ENC_BE32, ENC_BE64 complete in every state with PENDING = 0 (R133 to R135, R150): the
octets of the value, most significant first; nothing else changes. -/
def Obligations.EncodeBigEndianResults : Prop :=
  ∀ s : State, s.pending = false →
    (∀ v : BitVec 16, exec (.encBe16 v) s = .next { s with responses := s.responses ++
      [[0x00, v.extractLsb' 8 8, v.extractLsb' 0 8]] }) ∧
    (∀ v : BitVec 32, exec (.encBe32 v) s = .next { s with responses := s.responses ++
      [[0x00, v.extractLsb' 24 8, v.extractLsb' 16 8, v.extractLsb' 8 8, v.extractLsb' 0 8]] }) ∧
    (∀ v : BitVec 64, exec (.encBe64 v) s = .next { s with responses := s.responses ++
      [[0x00, v.extractLsb' 56 8, v.extractLsb' 48 8, v.extractLsb' 40 8, v.extractLsb' 32 8,
        v.extractLsb' 24 8, v.extractLsb' 16 8, v.extractLsb' 8 8, v.extractLsb' 0 8]] })

/-- ENC_LE16, ENC_LE32, ENC_LE64 complete in every state with PENDING = 0 (R139 to R141, R150): the
octets of the value, least significant first; nothing else changes. -/
def Obligations.EncodeLittleEndianResults : Prop :=
  ∀ s : State, s.pending = false →
    (∀ v : BitVec 16, exec (.encLe16 v) s = .next { s with responses := s.responses ++
      [[0x00, v.extractLsb' 0 8, v.extractLsb' 8 8]] }) ∧
    (∀ v : BitVec 32, exec (.encLe32 v) s = .next { s with responses := s.responses ++
      [[0x00, v.extractLsb' 0 8, v.extractLsb' 8 8, v.extractLsb' 16 8, v.extractLsb' 24 8]] }) ∧
    (∀ v : BitVec 64, exec (.encLe64 v) s = .next { s with responses := s.responses ++
      [[0x00, v.extractLsb' 0 8, v.extractLsb' 8 8, v.extractLsb' 16 8, v.extractLsb' 24 8,
        v.extractLsb' 32 8, v.extractLsb' 40 8, v.extractLsb' 48 8, v.extractLsb' 56 8]] })

/-- DEC_BE16, DEC_BE32, DEC_BE64 complete in every state with PENDING = 0 (R136 to R138, R150): the
value is the sum of the octets by place, first octet most significant, and the response carries it most
significant octet first; nothing else changes. -/
def Obligations.DecodeBigEndianResults : Prop :=
  ∀ s : State, s.pending = false →
    (∀ b0 b1 : Byte, exec (.decBe16 ⟨[b0, b1], rfl⟩) s = .next { s with responses := s.responses ++
      [0x00 :: encodeBe 2 (BitVec.ofNat 16 (b0.toNat * 256 + b1.toNat))] }) ∧
    (∀ b0 b1 b2 b3 : Byte, exec (.decBe32 ⟨[b0, b1, b2, b3], rfl⟩) s = .next { s with
      responses := s.responses ++ [0x00 :: encodeBe 4 (BitVec.ofNat 32
        (b0.toNat * 2 ^ 24 + b1.toNat * 2 ^ 16 + b2.toNat * 2 ^ 8 + b3.toNat))] }) ∧
    (∀ b0 b1 b2 b3 b4 b5 b6 b7 : Byte,
      exec (.decBe64 ⟨[b0, b1, b2, b3, b4, b5, b6, b7], rfl⟩) s = .next { s with
        responses := s.responses ++ [0x00 :: encodeBe 8 (BitVec.ofNat 64
          (b0.toNat * 256 ^ 7 + b1.toNat * 256 ^ 6 + b2.toNat * 256 ^ 5 + b3.toNat * 256 ^ 4
            + b4.toNat * 256 ^ 3 + b5.toNat * 256 ^ 2 + b6.toNat * 256 + b7.toNat))] })

/-- DEC_LE16, DEC_LE32, DEC_LE64 complete in every state with PENDING = 0 (R142 to R144, R150): the
value is the sum of the octets by place, first octet least significant, and the response carries it most
significant octet first; nothing else changes. -/
def Obligations.DecodeLittleEndianResults : Prop :=
  ∀ s : State, s.pending = false →
    (∀ b0 b1 : Byte, exec (.decLe16 ⟨[b0, b1], rfl⟩) s = .next { s with responses := s.responses ++
      [0x00 :: encodeBe 2 (BitVec.ofNat 16 (b0.toNat + b1.toNat * 256))] }) ∧
    (∀ b0 b1 b2 b3 : Byte, exec (.decLe32 ⟨[b0, b1, b2, b3], rfl⟩) s = .next { s with
      responses := s.responses ++ [0x00 :: encodeBe 4 (BitVec.ofNat 32
        (b0.toNat + b1.toNat * 2 ^ 8 + b2.toNat * 2 ^ 16 + b3.toNat * 2 ^ 24))] }) ∧
    (∀ b0 b1 b2 b3 b4 b5 b6 b7 : Byte,
      exec (.decLe64 ⟨[b0, b1, b2, b3, b4, b5, b6, b7], rfl⟩) s = .next { s with
        responses := s.responses ++ [0x00 :: encodeBe 8 (BitVec.ofNat 64
          (b0.toNat + b1.toNat * 256 + b2.toNat * 256 ^ 2 + b3.toNat * 256 ^ 3 + b4.toNat * 256 ^ 4
            + b5.toNat * 256 ^ 5 + b6.toNat * 256 ^ 6 + b7.toNat * 256 ^ 7))] })

/-- Round trip, value first (R145). -/
def Obligations.CodecRoundTripValueFirst : Prop :=
  ∀ n, n = 2 ∨ n = 4 ∨ n = 8 → ∀ v : BitVec (8 * n),
    decodeBe (encodeBe n v) = v.toNat ∧ decodeLe (encodeLe n v) = v.toNat

/-- Round trip, octets first, in both orders, and each encode a bijection between the values of a width
and the octet sequences of its length (R146; the little-endian half is the spec's own
"[derived: little-endian case from rules R145, R149]"). -/
def Obligations.CodecRoundTripOctetsFirst : Prop :=
  ∀ n, n = 2 ∨ n = 4 ∨ n = 8 →
    (∀ b : List Byte, b.length = n →
      encodeBe n (BitVec.ofNat (8 * n) (decodeBe b)) = b ∧
      encodeLe n (BitVec.ofNat (8 * n) (decodeLe b)) = b) ∧
    (∀ b : List Byte, b.length = n →
      (∃ v : BitVec (8 * n), encodeBe n v = b ∧ ∀ w, encodeBe n w = b → w = v) ∧
      (∃ v : BitVec (8 * n), encodeLe n v = b ∧ ∀ w, encodeLe n w = b → w = v))

/-- The relation between the two orders (R149, which the spec marks "[derived: from rules R131, R132,
R147, R148]"). -/
def Obligations.LittleEndianIsReversedBigEndian : Prop :=
  (∀ n, n = 2 ∨ n = 4 ∨ n = 8 → ∀ v : BitVec (8 * n), encodeLe n v = (encodeBe n v).reverse) ∧
  ∀ b : List Byte, b.length = 2 ∨ b.length = 4 ∨ b.length = 8 → decodeLe b = decodeBe b.reverse

/-! ### The checksum calculator (spec/41_checksum.md) -/

/-- The fold characterised, and its consequences (R170): the fold is the representative of the sum
modulo 0xFFFF, zero only for zero; folding once equals folding after every word; the extreme
checksums. The spec marks the rule "[derived: from rules R162, R163, R164]". -/
def Obligations.OnesFoldCharacterised : Prop :=
  (∀ t, onesFold t = 0 ↔ t = 0) ∧
  (∀ t, t ≠ 0 → (1 ≤ onesFold t ∧ onesFold t ≤ 0xFFFF ∧ onesFold t % 0xFFFF = t % 0xFFFF) ∧
    ∀ r, 1 ≤ r → r ≤ 0xFFFF → r % 0xFFFF = t % 0xFFFF → r = onesFold t) ∧
  (∀ ws : List Nat, (∀ w ∈ ws, w ≤ 0xFFFF) →
    ws.foldl (fun acc w => onesFold (acc + w)) 0 = onesFold ws.sum) ∧
  (∀ h : Octets 20, ipChecksum h = 0xFFFF ↔
    ∀ i, i < 20 → i ≠ 10 → i ≠ 11 → h.val[i]? = some 0x00) ∧
  (∀ h : Octets 20, ipChecksum h = 0x0000 ↔
    0 < ((ipWords h).eraseIdx 5).sum ∧ ((ipWords h).eraseIdx 5).sum % 0xFFFF = 0)

/-- Self-verification (R165): a header with its checksum stored sums to 0xFFFF, a value the spec marks
"[derived: ... from rules R162 to R164 and R170]", and verifies to zero. -/
def Obligations.ChecksumSelfVerifies : Prop :=
  (∀ h : Octets 20, (ipVerify h).toNat = 0xFFFF - onesSum h) ∧
  ∀ h g : Octets 20, g.val = h.val.take 10 ++ encodeBe 2 (ipChecksum h) ++ h.val.drop 12 →
    onesSum g = 0xFFFF ∧ ipVerify g = 0

/-- Widths and bounds (R167): the sums of ten and of nine words, the 32-bit accumulator (R8, R163) that
they never overflow, and the two passes of the fold;
the spec marks the bounds "[derived: bounds from rule R162]". -/
def Obligations.ChecksumBounds : Prop :=
  (∀ h : Octets 20, (ipWords h).length = 10 ∧ (∀ w ∈ ipWords h, w ≤ 0xFFFF) ∧
    (ipWords h).sum ≤ 0x9FFF6 ∧
    (ipWords (withChecksumWord ⟨[0x00, 0x00], rfl⟩ h)).sum ≤ 0x8FFF7 ∧
    accBits = 32 ∧ (accumulate (ipWords h)).toNat = (ipWords h).sum) ∧
  ∀ acc, acc ≤ 0x9FFF6 →
    acc % 65536 + acc / 65536 ≤ 0x10007 ∧
    (acc / 65536 = 9 → acc % 65536 + acc / 65536 ≤ 0xFFFF) ∧
    (0x10000 ≤ acc % 65536 + acc / 65536 →
      onesFold acc
          = (acc % 65536 + acc / 65536) % 65536 + (acc % 65536 + acc / 65536) / 65536 ∧
        onesFold acc ≤ 8) ∧
    (acc % 65536 + acc / 65536 < 0x10000 → onesFold acc = acc % 65536 + acc / 65536)

/-- IPCSUM completes in every state with PENDING = 0 (R164, R166): the complement of the folded sum of
the nine words other than the checksum word; octets 10 and 11 do not matter; nothing else changes. -/
def Obligations.IpcsumResult : Prop :=
  ∀ (h : Octets 20) (s : State), s.pending = false →
    let sum := ((List.range 10).map fun k => if k = 5 then 0 else
      (h.val.getD (2 * k) 0).toNat * 256 + (h.val.getD (2 * k + 1) 0).toNat).sum
    let c := 0xFFFF - onesFold sum
    exec (.ipcsum h) s = .next { s with responses := s.responses ++
      [[0x00, BitVec.ofNat 8 (c / 256), BitVec.ofNat 8 (c % 256)]] }

/-! ### The wire format (spec/30_encoding.md part A) -/

/-- The serialise and deserialise functions of the three headers are inverse to each other (R85 to
R87, round trips the spec marks "[derived: round trip from 40_codec.md rules R145, R146]"). -/
def Obligations.HeaderSerialiseInverse : Prop :=
  (∀ f, ethRead (ethWrite f) = f) ∧ (∀ h, ethWrite (ethRead h) = h) ∧
  (∀ f, ipv4Read (ipv4Write f) = f) ∧ (∀ h, ipv4Write (ipv4Read h) = h) ∧
  (∀ f, udpRead (udpWrite f) = f) ∧ (∀ h, udpWrite (udpRead h) = h)

/-! ### The frame builder (spec/42_builder.md) -/

/-- INIT (R181, R206, R247): SequenceError outside UNINIT, ParamError outside 42 to 65549, else CAP is
the operand, FB holds no value, STATE is READY; exactly one response, nothing else changes. That FB after
INIT is a memory with nothing listed is the model's form of octets without a value (R26; log entry 7,
DESIGN CHOICE). -/
def Obligations.InitResult : Prop :=
  ∀ (c : BitVec 32) (s : State), s.pending = false →
    (s.phase ≠ .uninit →
      exec (.init c) s = .next { s with responses := s.responses ++ [[0x80]] }) ∧
    (s.phase = .uninit → c.toNat < 42 ∨ 65549 < c.toNat →
      exec (.init c) s = .next { s with responses := s.responses ++ [[0x81]] }) ∧
    (s.phase = .uninit → 42 ≤ c.toNat → c.toNat ≤ 65549 →
      exec (.init c) s = .next { s with cap := some c.toNat, fb := [], phase := .ready
                                        responses := s.responses ++ [[0x00]] })

/-- SequenceError (R246): a builder command in a STATE that does not accept it, whatever its operands,
changes nothing. -/
def Obligations.SequenceErrors : Prop :=
  ∀ s : State, s.pending = false →
    (s.phase = .uninit → ∀ sm dm si di sp dp,
      exec (.buildHeader sm dm si di sp dp) s
        = .next { s with responses := s.responses ++ [[0x80]] }) ∧
    (s.phase = .uninit ∨ s.phase = .ready → ∀ payload,
      exec (.send payload) s = .next { s with responses := s.responses ++ [[0x80]] }) ∧
    (s.phase ≠ .uninit → ∀ c,
      exec (.init c) s = .next { s with responses := s.responses ++ [[0x80]] })

/-- InvalidAddressLength (R185, R244): an address operand of another length, zero included, ends
BUILD_HEADER with nothing changed, not even the poison fill. -/
def Obligations.AddressLengthErrors : Prop :=
  ∀ (s : State) (sm dm si di : List Byte) (sp dp : BitVec 16), s.pending = false →
    s.phase ≠ .uninit → sm.length ≠ 6 ∨ dm.length ≠ 6 ∨ si.length ≠ 4 ∨ di.length ≠ 4 →
    exec (.buildHeader sm dm si di sp dp) s
      = .next { s with responses := s.responses ++ [[0x03]] }

/-- BUILD_HEADER completes wherever a buffer exists (R184, R186 to R188): it names every octet of FB
from 0 to CAP - 1, poison where no field is set, and changes STATE and the responses besides. -/
def Obligations.BuildHeaderResult : Prop :=
  ∀ (s : State) (c : Nat) (dm sm : Octets 6) (si di : Octets 4) (sp dp : BitVec 16),
    s.pending = false → s.phase ≠ .uninit → s.cap = some c → 42 ≤ c → Memory.wf s.fb →
    ∃ fb, exec (.buildHeader sm.val dm.val si.val di.val sp dp) s
        = .next { s with fb := fb, phase := .headerBuilt, responses := s.responses ++ [[0x00]] } ∧
      Memory.wf fb ∧
      (∀ a, a < c → readOctet fb a =
        (dm.val ++ sm.val ++ [0x08, 0x00]
          ++ [0x45, 0x00, 0xDD, 0xDD, s.ipId.extractLsb' 8 8, s.ipId.extractLsb' 0 8, 0x40, 0x00,
              0x40, 0x11, 0xDD, 0xDD] ++ si.val ++ di.val
          ++ [sp.extractLsb' 8 8, sp.extractLsb' 0 8, dp.extractLsb' 8 8, dp.extractLsb' 0 8,
              0xDD, 0xDD, 0xDD, 0xDD]
          ++ List.replicate (c - 42) 0xDD)[a]?) ∧
      (∀ a, c ≤ a → readOctet fb a = readOctet s.fb a)

/-- The frame of BUILD_HEADER in every state (R33, R185): where it answers a next state, only FB below
CAP, STATE and the responses may change, and FB and STATE only with status OK. -/
def Obligations.BuildHeaderFrame : Prop :=
  ∀ (s t : State) (sm dm si di : List Byte) (sp dp : BitVec 16), Memory.wf s.fb →
    exec (.buildHeader sm dm si di sp dp) s = .next t →
    t.cap = s.cap ∧ t.pending = s.pending ∧ t.ipId = s.ipId ∧ t.ifh = s.ifh ∧
    t.inputs = s.inputs ∧ t.txRequests = s.txRequests ∧ Memory.wf t.fb ∧
    (∀ a c, s.cap = some c → c ≤ a → readOctet t.fb a = readOctet s.fb a) ∧
    (t.responses ≠ s.responses ++ [[0x00]] → t.phase = s.phase ∧ t.fb = s.fb)

/-- Retargeting (R204: "nothing of the earlier header survives"): from any two states of one capacity and identification, the same BUILD_HEADER
gives the same FB, and a SEND after it hands over the same octets: nothing of an earlier header or
payload survives. -/
def Obligations.RetargetLeavesNothingStale : Prop :=
  ∀ (s₁ s₂ : State) (dm sm : Octets 6) (si di : Octets 4) (sp dp : BitVec 16) (payload : List Byte)
    (c : Nat), Inv s₁ → Inv s₂ → s₁.pending = false → s₂.pending = false →
    s₁.cap = some c → s₂.cap = some c → s₁.ipId = s₂.ipId → 42 + payload.length ≤ c →
    ∃ t₁ t₂ u₁ u₂ r₁ r₂,
      exec (.buildHeader sm.val dm.val si.val di.val sp dp) s₁ = .next t₁ ∧
      exec (.buildHeader sm.val dm.val si.val di.val sp dp) s₂ = .next t₂ ∧
      t₁.phase = .headerBuilt ∧ t₂.phase = .headerBuilt ∧ t₁.fb = t₂.fb ∧
      exec (.send payload) t₁ = .next u₁ ∧ exec (.send payload) t₂ = .next u₂ ∧
      u₁.txRequests = s₁.txRequests ++ [r₁] ∧ u₂.txRequests = s₂.txRequests ++ [r₂] ∧
      r₁.dst = dm.val ∧ r₂.dst = dm.val ∧ r₁.data = r₂.data ∧ r₁.n = r₂.n

/-- CapacityError (R242): a payload that does not fit ends SEND with nothing changed and no TX
request. -/
def Obligations.CapacityErrors : Prop :=
  ∀ (s : State) (c : Nat) (payload : List Byte), s.pending = false →
    s.phase = .headerBuilt ∨ s.phase = .sent → s.cap = some c → 42 ≤ c → payload.length > c - 42 →
    exec (.send payload) s = .next { s with responses := s.responses ++ [[0x01]] }

/-- SEND phase A completes wherever a header exists and the payload fits (R189 to R196): the payload,
the two length fields, the checksum over the header as it then stands and the UDP sentinel are in FB,
one TX request carries FB's first `42 + L` octets and its destination MAC, PENDING is 1, there is no
response yet, and nothing else changed. -/
def Obligations.SendPhaseAResult : Prop :=
  ∀ (s : State) (c : Nat) (payload : List Byte), Inv s → s.pending = false →
    s.phase = .headerBuilt ∨ s.phase = .sent → s.cap = some c → payload.length ≤ c - 42 →
    let l := payload.length
    ∃ fb dst data, exec (.send payload) s
        = .next { s with fb := fb, pending := true, txRequests := s.txRequests ++ [⟨s.ifh, dst, data, 42 + l⟩] } ∧
      readOctets s.fb 0 6 = some dst ∧
      readOctets fb 0 (42 + l) = some data ∧ data.length = 42 + l ∧
      (∀ i, i < l → readOctet fb (42 + i) = payload[i]?) ∧
      readOctet fb 16 = some (BitVec.ofNat 8 ((28 + l) / 256)) ∧
      readOctet fb 17 = some (BitVec.ofNat 8 ((28 + l) % 256)) ∧
      (∃ hdr : Octets 20, readOctets fb 14 20 = some hdr.val ∧
        readOctets fb 24 2 = some (encodeBe 2 (ipChecksum hdr))) ∧
      readOctet fb 38 = some (BitVec.ofNat 8 ((8 + l) / 256)) ∧
      readOctet fb 39 = some (BitVec.ofNat 8 ((8 + l) % 256)) ∧
      readOctet fb 40 = some 0x00 ∧ readOctet fb 41 = some 0x00 ∧
      (∀ a, (a < 16 ∨ (18 ≤ a ∧ a < 24) ∨ (26 ≤ a ∧ a < 38) ∨ 42 + l ≤ a) →
        readOctet fb a = readOctet s.fb a)

/-- The frame of SEND phase A in every state (R33, R251; spec/20_memory.md R69): where it answers a next
state, every octet outside 16 to 17, 24 to 25, 38 to 41 and 42 to `41 + L` reads as before, residue
included, STATE, CAP and the configuration inputs are unchanged, and FB is unchanged where the command
is answered with an error. R33 and R69 are marked derived in the spec, from R191 and R196. -/
def Obligations.SendFrame : Prop :=
  ∀ (s t : State) (payload : List Byte), Memory.wf s.fb → exec (.send payload) s = .next t →
    t.phase = s.phase ∧ t.cap = s.cap ∧ t.ipId = s.ipId ∧ t.ifh = s.ifh ∧ t.inputs = s.inputs ∧
    Memory.wf t.fb ∧
    (∀ a, (a < 16 ∨ (18 ≤ a ∧ a < 24) ∨ (26 ≤ a ∧ a < 38) ∨ 42 + payload.length ≤ a) →
      readOctet t.fb a = readOctet s.fb a) ∧
    (t.pending = false → t.fb = s.fb ∧ t.txRequests = s.txRequests) ∧
    (t.pending = true → t.responses = s.responses)

/-- Phase B (R197, R198), for every answer: FAIL or 0 is TransmitError with STATE and FB as they were;
any other count is returned unchanged and STATE is SENT; PENDING is 0, and nothing else changes. -/
def Obligations.PhaseBResult : Prop :=
  ∀ s : State,
    sendPhaseB .fail s
      = .next { s with pending := false, responses := s.responses ++ [[0x02]] } ∧
    sendPhaseB (.count 0) s
      = .next { s with pending := false, responses := s.responses ++ [[0x02]] } ∧
    ∀ r : BitVec 32, r ≠ 0 → sendPhaseB (.count r) s = .next { s with
        pending := false, phase := .sent
        responses := s.responses ++
          [[0x00, r.extractLsb' 24 8, r.extractLsb' 16 8, r.extractLsb' 8 8, r.extractLsb' 0 8]] }

/-- A step that takes the answer SEND waits for runs phase B (R189, R197, R198), behind any commands
held back. That an answer names its request and that commands before it stay in place are the model's
form of the port (log entries 10 and 11). -/
def Obligations.AnswerEndsSend : Prop :=
  ∀ (s : State) (held rest : List Input), s.pending = true → HeldBack s held →
    (s.inputs = held ++ .txAnswer s.txRequests.length .fail :: rest ∨
        s.inputs = held ++ .txAnswer s.txRequests.length (.count 0) :: rest →
      step s = .next { s with inputs := held ++ rest, pending := false
                              responses := s.responses ++ [[0x02]] }) ∧
    ∀ r : BitVec 32, r ≠ 0 → s.inputs = held ++ .txAnswer s.txRequests.length (.count r) :: rest →
      step s = .next { s with
        inputs := held ++ rest, pending := false, phase := .sent
        responses := s.responses ++
          [[0x00, r.extractLsb' 24 8, r.extractLsb' 16 8, r.extractLsb' 8 8, r.extractLsb' 0 8]] }

/-- The frame in closed form (spec/30_encoding.md R88): BUILD_HEADER and then SEND hand TXC exactly
`frame`, the three headers written by `ethWrite`, `ipv4Write` and `udpWrite` and the payload. The spec
marks the rule "[derived: from 42_builder.md rules R187, R191 to R196 and 41_checksum.md rule R164]". -/
def Obligations.FrameInClosedForm : Prop :=
  ∀ (s : State) (p : FrameParams) (payload : List Byte) (c : Nat), Inv s → s.pending = false →
    s.phase ≠ .uninit → s.cap = some c → 42 + payload.length ≤ c →
    ∃ t u,
      exec (.buildHeader p.srcMac.val p.dstMac.val p.srcIp.val p.dstIp.val p.srcPort p.dstPort) s
        = .next t ∧
      exec (.send payload) t = .next u ∧ u.pending = true ∧
      u.txRequests = s.txRequests ++
        [{ ifh := s.ifh, dst := p.dstMac.val, data := frame s.ipId p payload
           n := 42 + payload.length }]

/-- Length relations (spec/30_encoding.md R84) in the request a SEND issues: frame_length is 14 + 20 + 8
+ L, the IPv4 total length 20 + 8 + L, the UDP length 8 + L, and all fit their fields. -/
def Obligations.RequestLengthsAgree : Prop :=
  ∀ (s t : State) (payload : List Byte) (r : TxRequest), Inv s → exec (.send payload) s = .next t →
    t.txRequests = s.txRequests ++ [r] →
    let totlen := decodeBe ((r.data.drop 16).take 2)
    let udplen := decodeBe ((r.data.drop 38).take 2)
    r.n = 14 + 20 + 8 + payload.length ∧ r.data.length = r.n ∧
    totlen = 20 + 8 + payload.length ∧ udplen = 8 + payload.length ∧
    totlen = r.n - 14 ∧ udplen = totlen - 20 ∧ totlen ≤ 65535 ∧ r.n ≤ 65549

/-- Every frame handed to TXC carries an IPv4 header whose checksum verifies (R193;
spec/41_checksum.md R165). -/
def Obligations.TransmittedHeaderVerifies : Prop :=
  ∀ (s t : State) (payload : List Byte) (r : TxRequest), Inv s → exec (.send payload) s = .next t →
    t.txRequests = s.txRequests ++ [r] →
    ∃ hdr : Octets 20, hdr.val = (r.data.drop 14).take 20 ∧ ipVerify hdr = 0

/-- Repeated SEND (R200): two SENDs on the same built header, with any answer in between, hand over
frames whose first 42 octets differ at most in the length fields and the checksum, and not at all for
payloads of one length, which the spec marks "[derived: last sentence from rules R192 to R195]". -/
def Obligations.RepeatedSendSameHeader : Prop :=
  ∀ (s : State) (c : Nat) (pay₁ pay₂ : List Byte) (r : TxResponse), Inv s → s.pending = false →
    s.phase = .headerBuilt ∨ s.phase = .sent → s.cap = some c →
    42 + pay₁.length ≤ c → 42 + pay₂.length ≤ c →
    ∃ t u v r₁ r₂, exec (.send pay₁) s = .next t ∧ sendPhaseB r t = .next u ∧
      exec (.send pay₂) u = .next v ∧
      t.txRequests = s.txRequests ++ [r₁] ∧ v.txRequests = s.txRequests ++ [r₁, r₂] ∧
      (∀ a, a < 42 → a ≠ 16 → a ≠ 17 → a ≠ 24 → a ≠ 25 → a ≠ 38 → a ≠ 39 →
        r₁.data[a]? = r₂.data[a]?) ∧
      r₁.data.drop 42 = pay₁ ∧ r₂.data.drop 42 = pay₂ ∧
      (pay₁.length = pay₂.length → r₁.data.take 42 = r₂.data.take 42)

/-! ### The machine -/

/-- While PENDING = 0, a packet that decodes to a command is taken from the port and the command runs
(spec/00_scope.md R14; spec/30_encoding.md R100, R105). -/
def Obligations.StepRunsDecodedCommand : Prop :=
  ∀ (s : State) (p : List Byte) (i : Instr) (left : List Input), s.pending = false →
    s.inputs = .command p :: left → decode p = .ok i → step s = exec i { s with inputs := left }

/-- A packet presented with `withFetchWord` is the next one run (log entry 2): the model's own host
interface, no rule of the spec. -/
def Obligations.PresentedPacketRuns : Prop :=
  ∀ (s : State) (nbits w : Nat) (i : Instr), decodeTableWord nbits w = some i →
    step (s.withFetchWord nbits w) = exec i { s with pending := false }

/-- The decoder's two errors (spec/60_exceptions.md R248): answered before any command exists, nothing
else changes. -/
def Obligations.DecoderErrorsAnswered : Prop :=
  ∀ (s : State) (p : List Byte) (left : List Input), s.pending = false →
    s.inputs = .command p :: left →
    (decode p = .error .opcodeError →
      step s = .next { s with inputs := left, responses := s.responses ++ [[0x82]] }) ∧
    (decode p = .error .formatError →
      step s = .next { s with inputs := left, responses := s.responses ++ [[0x83]] })

/-- No command while PENDING = 1 (spec/70_reset_and_hazards.md R291): no exec or sendA step is enabled
(the meanings refuse, log entry 9), commands presented stay where they are, and the first reset or TX
answer behind them is what the block takes (the model's form of the ports, log entries 10 and 11). -/
def Obligations.PendingHoldsCommands : Prop :=
  ∀ s : State, s.pending = true →
    (∀ i, exec i s = .refused .commandWhilePending) ∧
    ((∀ j ∈ s.inputs, ∃ p, j = .command p) → step s = .next s) ∧
    ∀ held rest, HeldBack s held →
      (s.inputs = held ++ .reset :: rest →
        step s = .next (applyReset { s with inputs := held ++ rest })) ∧
      ∀ r, s.inputs = held ++ .txAnswer s.txRequests.length r :: rest →
        step s = sendPhaseB r { s with inputs := held ++ rest }

/-- With no input presented the block waits (spec/70_reset_and_hazards.md R293); that waiting is a step
to the same state is the model's choice (log entry 12). -/
def Obligations.WaitsWithoutInput : Prop :=
  ∀ s : State, s.inputs = [] → step s = .next s

/-- Reset at any time (spec/70_reset_and_hazards.md R280): UNINIT, CAP invalid, FB discarded, PENDING 0;
the configuration inputs and what was sent stay. Where the reset stands in `inputs` is the model's form
of the ports (log entries 1 and 11). -/
def Obligations.ResetEffects : Prop :=
  ∀ (s : State) (held rest : List Input), HeldBack s held → s.inputs = held ++ .reset :: rest →
    step s = .next { s with phase := .uninit, cap := none, fb := [], pending := false
                            inputs := held ++ rest }

/-- Reset while a SEND is pending (spec/70_reset_and_hazards.md R281): no response, the request stays
issued, and an answer to it that comes later is discarded, whatever the block does by then. That the
block tells a late answer by its request's number is the model's choice (log entry 10). -/
def Obligations.PendingSendAbandoned : Prop :=
  (∀ (s : State) (held rest : List Input), s.pending = true → HeldBack s held →
    s.inputs = held ++ .reset :: rest →
    ∃ t, step s = .next t ∧ t.pending = false ∧ t.responses = s.responses ∧
      t.txRequests = s.txRequests) ∧
  (∀ (s : State) (q : Nat) (r : TxResponse) (held rest : List Input), HeldBack s held →
    s.inputs = held ++ .txAnswer q r :: rest → s.pending = false ∨ q ≠ s.txRequests.length →
    step s = .next { s with inputs := held ++ rest })

/-- The state after reset (spec/10_state.md R32). -/
def Obligations.ResetStateValues : Prop :=
  State.reset.phase = .uninit ∧ State.reset.cap = none ∧ State.reset.fb = [] ∧
  State.reset.pending = false

/-- The reset state satisfies the invariants. -/
def Obligations.ResetSatisfiesInvariant : Prop := Inv State.reset ∧ FrameInv State.reset

/-- Every step keeps the invariant of the block (spec/10_state.md R24 to R27, R36 (a), (b);
spec/20_memory.md R61). -/
def Obligations.StepKeepsInvariant : Prop :=
  ∀ s t : State, Inv s → step s = .next t → Inv t

/-- Every step keeps the finished frame (spec/10_state.md R36 (d); spec/20_memory.md R63;
spec/70_reset_and_hazards.md R285): in SENT and while a request is outstanding the header in FB is
finished and its checksum verifies, and while a request is outstanding FB is what TXC was handed. -/
def Obligations.StepKeepsFrameInvariant : Prop :=
  ∀ s t : State, FrameInv s → step s = .next t → FrameInv t

/-- From a state of the invariant a step always answers a next state: no access is out of bounds, no
octet without a value is read, no length overflows its field (spec/20_memory.md R61;
spec/60_exceptions.md R240). -/
def Obligations.InvariantStatesNeverStop : Prop :=
  ∀ s : State, Inv s → ∃ t, step s = .next t

/-- No step writes the configuration inputs (spec/10_state.md R30; held as fields, log entry 4). -/
def Obligations.ConfigurationInputsConstant : Prop :=
  ∀ s t : State, step s = .next t → t.ipId = s.ipId ∧ t.ifh = s.ifh

/-- CAP, once set, changes only by reset (spec/10_state.md R25; spec/70_reset_and_hazards.md R280). -/
def Obligations.CapacityFixedOnceSet : Prop :=
  ∀ (s t : State) (c : Nat), Inv s → s.cap = some c → step s = .next t →
    t.cap = some c ∨
      (t.cap = none ∧ t.phase = .uninit ∧
        ∃ left, nextInput s.pending s.inputs = some (.reset, left))

/-- The transitions of STATE (spec/10_state.md R24): INIT is the only way from UNINIT to READY,
BUILD_HEADER the only one into HEADER_BUILT, a successful phase B the only one into SENT, reset the only
one into UNINIT. -/
def Obligations.StateTransitions : Prop :=
  ∀ s t : State, step s = .next t → t.phase ≠ s.phase →
    (s.phase = .uninit ∧ t.phase = .ready ∧ s.pending = false ∧
      ∃ p left c, s.inputs = .command p :: left ∧ decode p = .ok (.init c)) ∨
    (s.phase ≠ .uninit ∧ t.phase = .headerBuilt ∧ s.pending = false ∧
      ∃ p left sm dm si di sp dp, s.inputs = .command p :: left ∧
        decode p = .ok (.buildHeader sm dm si di sp dp)) ∨
    (t.phase = .sent ∧ s.pending = true ∧
      ∃ n left, n ≠ 0 ∧
        nextInput true s.inputs = some (.txAnswer s.txRequests.length (.count n), left)) ∨
    (t.phase = .uninit ∧ ∃ left, nextInput s.pending s.inputs = some (.reset, left))

/-- When a TX request is issued (spec/43_tx_handoff.md R222, marked "[derived: from
42_builder.md rule R189 and 10_state.md rule R27]"): only by a SEND that passes its sequence
and capacity checks, one at a time, never while another is outstanding. -/
def Obligations.OnlySendIssuesRequests : Prop :=
  ∀ s t : State, step s = .next t →
    t.txRequests = s.txRequests ∨
      (s.pending = false ∧ t.pending = true ∧
        ∃ p left payload c r, s.inputs = .command p :: left ∧ decode p = .ok (.send payload) ∧
          (s.phase = .headerBuilt ∨ s.phase = .sent) ∧ s.cap = some c ∧ 42 + payload.length ≤ c ∧
          t.txRequests = s.txRequests ++ [r])

/-- One response per command (spec/30_encoding.md R100; spec/42_builder.md R205). While PENDING = 0 a
command taken is answered in its step, but for a SEND that issued its request. While PENDING = 1 a step
keeps PENDING and answers nothing, or takes the awaited answer, clears PENDING and answers once, or takes
a reset, clears PENDING and answers nothing (spec/70_reset_and_hazards.md R281). A step that takes no
command while PENDING = 0 answers nothing. How the awaited answer and the reset are found in `inputs` is
the model's form of the ports (log entries 10 and 11). -/
def Obligations.CommandAnsweredOnce : Prop :=
  (∀ (s t : State) (p : List Byte) (left : List Input), s.pending = false →
    s.inputs = .command p :: left → step s = .next t →
    (t.pending = false ∧ ∃ q, t.responses = s.responses ++ [q]) ∨
    (t.pending = true ∧ t.responses = s.responses ∧ ∃ payload, decode p = .ok (.send payload))) ∧
  (∀ s t : State, s.pending = true → step s = .next t →
    (t.pending = true ∧ t.responses = s.responses) ∨
    (t.pending = false ∧ (∃ q, t.responses = s.responses ++ [q]) ∧
      ∃ r left, nextInput true s.inputs = some (.txAnswer s.txRequests.length r, left)) ∨
    (t.pending = false ∧ t.responses = s.responses ∧
      ∃ left, nextInput true s.inputs = some (.reset, left))) ∧
  ∀ s t : State, s.pending = false → (∀ p left, s.inputs ≠ .command p :: left) → step s = .next t →
    t.pending = false ∧ t.responses = s.responses

/-- Every response is a status octet of the table and a result only with OK (spec/30_encoding.md R110;
spec/60_exceptions.md R241). -/
def Obligations.ResponsesWellFormed : Prop :=
  ∀ s t : State, step s = .next t →
    t.responses = s.responses ∨
      ∃ (st : Byte) (result : List Byte), t.responses = s.responses ++ [st :: result] ∧
        st ∈ [0x00, 0x01, 0x02, 0x03, 0x80, 0x81, 0x82, (0x83 : Byte)] ∧ (st ≠ 0x00 → result = [])

/-- What an error other than TransmitError leaves (spec/60_exceptions.md R251; R252, marked "[derived:
from rule R251 and 20_memory.md rule R62]"): a command answered with one in the step that takes it has had
no effect at all. A SEND answered TransmitError is answered by phase B and keeps phase A's writes and its
request (R251, last row): SendPhaseAResult and PhaseBResult state that. -/
def Obligations.ErrorsButTransmitErrorLeaveNothing : Prop :=
  ∀ (s t : State) (p : List Byte) (left : List Input) (st : Byte) (result : List Byte),
    s.pending = false → s.inputs = .command p :: left → step s = .next t →
    t.responses = s.responses ++ [st :: result] → st ≠ 0x00 →
    t = { s with inputs := left, responses := s.responses ++ [[st]] }
end

