-- ==== Sys2Proof/Laws/State.lean ====
section
/-! SUPPORT. One lemma per field per named update of State, so that no proof unfolds an update. -/

namespace Sys2Proof.Machine

/-! ### A response sent -/

@[simp] theorem respond_phase (st : Status) (r : List Byte) (s : State) : (respond st r s).phase = s.phase := rfl
@[simp] theorem respond_cap (st : Status) (r : List Byte) (s : State) : (respond st r s).cap = s.cap := rfl
@[simp] theorem respond_fb (st : Status) (r : List Byte) (s : State) : (respond st r s).fb = s.fb := rfl
@[simp] theorem respond_pending (st : Status) (r : List Byte) (s : State) : (respond st r s).pending = s.pending := rfl
@[simp] theorem respond_ipId (st : Status) (r : List Byte) (s : State) : (respond st r s).ipId = s.ipId := rfl
@[simp] theorem respond_ifh (st : Status) (r : List Byte) (s : State) : (respond st r s).ifh = s.ifh := rfl
@[simp] theorem respond_inputs (st : Status) (r : List Byte) (s : State) : (respond st r s).inputs = s.inputs := rfl
@[simp] theorem respond_responses (st : Status) (r : List Byte) (s : State) : (respond st r s).responses = s.responses ++ [responsePacket st r] := rfl
@[simp] theorem respond_txRequests (st : Status) (r : List Byte) (s : State) : (respond st r s).txRequests = s.txRequests := rfl

/-! ### A TX request issued -/

@[simp] theorem issueTxRequest_phase (d b : List Byte) (n : Nat) (s : State) : (issueTxRequest d b n s).phase = s.phase := rfl
@[simp] theorem issueTxRequest_cap (d b : List Byte) (n : Nat) (s : State) : (issueTxRequest d b n s).cap = s.cap := rfl
@[simp] theorem issueTxRequest_fb (d b : List Byte) (n : Nat) (s : State) : (issueTxRequest d b n s).fb = s.fb := rfl
@[simp] theorem issueTxRequest_pending (d b : List Byte) (n : Nat) (s : State) : (issueTxRequest d b n s).pending = true := rfl
@[simp] theorem issueTxRequest_ipId (d b : List Byte) (n : Nat) (s : State) : (issueTxRequest d b n s).ipId = s.ipId := rfl
@[simp] theorem issueTxRequest_ifh (d b : List Byte) (n : Nat) (s : State) : (issueTxRequest d b n s).ifh = s.ifh := rfl
@[simp] theorem issueTxRequest_inputs (d b : List Byte) (n : Nat) (s : State) : (issueTxRequest d b n s).inputs = s.inputs := rfl
@[simp] theorem issueTxRequest_responses (d b : List Byte) (n : Nat) (s : State) : (issueTxRequest d b n s).responses = s.responses := rfl
@[simp] theorem issueTxRequest_txRequests (d b : List Byte) (n : Nat) (s : State) : (issueTxRequest d b n s).txRequests = s.txRequests ++ [⟨s.ifh, d, b, n⟩] := rfl

/-! ### Reset -/

@[simp] theorem applyReset_phase (s : State) : (applyReset s).phase = .uninit := rfl
@[simp] theorem applyReset_cap (s : State) : (applyReset s).cap = none := rfl
@[simp] theorem applyReset_fb (s : State) : (applyReset s).fb = [] := rfl
@[simp] theorem applyReset_pending (s : State) : (applyReset s).pending = false := rfl
@[simp] theorem applyReset_ipId (s : State) : (applyReset s).ipId = s.ipId := rfl
@[simp] theorem applyReset_ifh (s : State) : (applyReset s).ifh = s.ifh := rfl
@[simp] theorem applyReset_inputs (s : State) : (applyReset s).inputs = s.inputs := rfl
@[simp] theorem applyReset_responses (s : State) : (applyReset s).responses = s.responses := rfl
@[simp] theorem applyReset_txRequests (s : State) : (applyReset s).txRequests = s.txRequests := rfl

/-! ### A packet presented -/

@[simp] theorem withFetchWord_phase (s : State) (n w : Nat) : (s.withFetchWord n w).phase = s.phase := rfl
@[simp] theorem withFetchWord_cap (s : State) (n w : Nat) : (s.withFetchWord n w).cap = s.cap := rfl
@[simp] theorem withFetchWord_fb (s : State) (n w : Nat) : (s.withFetchWord n w).fb = s.fb := rfl
@[simp] theorem withFetchWord_pending (s : State) (n w : Nat) : (s.withFetchWord n w).pending = false := rfl
@[simp] theorem withFetchWord_ipId (s : State) (n w : Nat) : (s.withFetchWord n w).ipId = s.ipId := rfl
@[simp] theorem withFetchWord_ifh (s : State) (n w : Nat) : (s.withFetchWord n w).ifh = s.ifh := rfl
@[simp] theorem withFetchWord_inputs (s : State) (n w : Nat) : (s.withFetchWord n w).inputs = .command (Sys2Proof.tablePacket n w) :: s.inputs := rfl
@[simp] theorem withFetchWord_responses (s : State) (n w : Nat) : (s.withFetchWord n w).responses = s.responses := rfl
@[simp] theorem withFetchWord_txRequests (s : State) (n w : Nat) : (s.withFetchWord n w).txRequests = s.txRequests := rfl

/-! ### The reset state -/

@[simp] theorem reset_phase : State.reset.phase = .uninit := rfl
@[simp] theorem reset_cap : State.reset.cap = none := rfl
@[simp] theorem reset_fb : State.reset.fb = [] := rfl
@[simp] theorem reset_pending : State.reset.pending = false := rfl
@[simp] theorem reset_ipId : State.reset.ipId = 0xABCD := rfl
@[simp] theorem reset_ifh : State.reset.ifh = ⟨0⟩ := rfl
@[simp] theorem reset_inputs : State.reset.inputs = [] := rfl
@[simp] theorem reset_responses : State.reset.responses = [] := rfl
@[simp] theorem reset_txRequests : State.reset.txRequests = [] := rfl

end Sys2Proof.Machine
end

