-- ==== Sys2Proof/Laws/Memory.lean ====
section
/-! SUPPORT. The laws of FB: reading after writing, the canonical form, and FB as one list of octets. -/

namespace Sys2Proof.Machine

/-! ### Consecutive cells -/

@[simp] theorem cellsAt_nil (a : Nat) : cellsAt a [] = [] := rfl

@[simp] theorem cellsAt_cons (a : Nat) (b : Byte) (bs : List Byte) :
    cellsAt a (b :: bs) = (a, b) :: cellsAt (a + 1) bs := rfl

@[simp] theorem cellsAt_length (a : Nat) (bs : List Byte) : (cellsAt a bs).length = bs.length := by
  induction bs generalizing a with
  | nil => rfl
  | cons b bs ih => simp [ih]

theorem cellsAt_append (a : Nat) (bs cs : List Byte) :
    cellsAt a (bs ++ cs) = cellsAt a bs ++ cellsAt (a + bs.length) cs := by
  induction bs generalizing a with
  | nil => simp
  | cons b bs ih => simp [ih, Nat.add_assoc, Nat.add_comm 1]

theorem mem_cellsAt_range {a : Nat} {bs : List Byte} {c : Host.Cell} (h : c ∈ cellsAt a bs) :
    a ≤ c.1 ∧ c.1 < a + bs.length := by
  induction bs generalizing a with
  | nil => simp at h
  | cons b bs ih =>
    simp only [cellsAt_cons, List.mem_cons] at h
    rcases h with rfl | h
    · simp
    · have := ih h
      simp only [List.length_cons]
      omega

theorem cellsAt_wf (a : Nat) (bs : List Byte) : Memory.wf (cellsAt a bs) := by
  induction bs generalizing a with
  | nil => simp [Memory.wf]
  | cons b bs ih =>
    refine List.Pairwise.cons (fun c hc => ?_) (ih (a + 1))
    have := (mem_cellsAt_range hc).1
    simp only
    omega

/-! ### Reading one octet -/

@[simp] theorem readOctet_nil (a : Nat) : readOctet [] a = none := rfl

theorem readOctet_append (m m' : Memory) (a : Nat) :
    readOctet (m ++ m') a = (readOctet m a).or (readOctet m' a) := by
  induction m with
  | nil => simp
  | cons c m ih =>
    obtain ⟨k, v⟩ := c
    by_cases h : k = a <;> simp [readOctet, h, ih]

theorem readOctet_eq_none {m : Memory} {a : Nat} (h : ∀ c ∈ m, c.1 ≠ a) : readOctet m a = none := by
  induction m with
  | nil => rfl
  | cons c m ih =>
    obtain ⟨k, v⟩ := c
    have hk : k ≠ a := h (k, v) (by simp)
    simp only [readOctet, if_neg hk]
    exact ih fun c hc => h c (by simp [hc])

theorem readOctet_mem {m : Memory} {a : Nat} {v : Byte} (h : readOctet m a = some v) : (a, v) ∈ m := by
  induction m with
  | nil => simp at h
  | cons c m ih =>
    obtain ⟨k, w⟩ := c
    simp only [readOctet] at h
    split at h
    · simp_all
    · simp [ih h]

theorem readOctet_cellsAt (a : Nat) (bs : List Byte) (x : Nat) :
    readOctet (cellsAt a bs) x = if a ≤ x then bs[x - a]? else none := by
  induction bs generalizing a with
  | nil => simp
  | cons b bs ih =>
    simp only [cellsAt_cons, readOctet, ih]
    by_cases h : a = x
    · simp [h]
    · rw [if_neg h]
      by_cases h2 : a ≤ x
      · rw [if_pos (show a + 1 ≤ x by omega), if_pos h2, show x - a = (x - (a + 1)) + 1 by omega]
        rfl
      · rw [if_neg (show ¬ a + 1 ≤ x by omega), if_neg h2]

/-! ### The canonical form -/

theorem wf_cons {c : Host.Cell} {m : Memory} :
    Memory.wf (c :: m) ↔ (∀ d ∈ m, c.1 < d.1) ∧ Memory.wf m := List.pairwise_cons

theorem mem_takeWhile_below {m : Memory} {a : Nat} {c : Host.Cell}
    (h : c ∈ m.takeWhile (fun c => c.1 < a)) : c.1 < a := by
  simpa using List.mem_takeWhile_imp h

theorem mem_dropWhile_below {m : Memory} (hm : Memory.wf m) {a : Nat} {c : Host.Cell}
    (h : c ∈ m.dropWhile (fun c => c.1 < a)) : a ≤ c.1 := by
  induction m with
  | nil => simp at h
  | cons d m ih =>
    rw [wf_cons] at hm
    by_cases hd : d.1 < a
    · rw [List.dropWhile_cons_of_pos (by simpa using hd)] at h
      exact ih hm.2 h
    · rw [List.dropWhile_cons_of_neg (by simpa using hd)] at h
      simp only [List.mem_cons] at h
      rcases h with rfl | h
      · omega
      · have := hm.1 c h
        omega

/-- Every write keeps the canonical form. -/
theorem writeOctets_wf {m : Memory} (hm : Memory.wf m) (a : Nat) (bs : List Byte) :
    Memory.wf (writeOctets m a bs) := by
  unfold writeOctets Memory.wf
  rw [List.pairwise_append, List.pairwise_append]
  refine ⟨⟨hm.sublist (List.takeWhile_sublist _), cellsAt_wf a bs, ?_⟩,
    hm.sublist (List.dropWhile_sublist _), ?_⟩
  · intro c hc d hd
    exact Nat.lt_of_lt_of_le (mem_takeWhile_below hc) (mem_cellsAt_range hd).1
  · intro c hc d hd
    have h2 := mem_dropWhile_below hm hd
    rcases List.mem_append.mp hc with hc | hc
    · have := mem_takeWhile_below hc
      omega
    · have := (mem_cellsAt_range hc).2
      omega

theorem reset_memory_wf : Memory.wf State.reset.fb := List.Pairwise.nil

/-! ### Reading after writing -/

theorem readOctet_takeWhile {m : Memory} {a x : Nat} (hm : Memory.wf m) (hx : x < a) :
    readOctet (m.takeWhile (fun c => c.1 < a)) x = readOctet m x := by
  have h := readOctet_append (m.takeWhile (fun c => c.1 < a)) (m.dropWhile (fun c => c.1 < a)) x
  rw [List.takeWhile_append_dropWhile] at h
  rw [h, readOctet_eq_none (m := m.dropWhile _), Option.or_none]
  intro c hc
  have := mem_dropWhile_below hm hc
  omega

theorem readOctet_dropWhile {m : Memory} {a x : Nat} (hx : a ≤ x) :
    readOctet (m.dropWhile (fun c => c.1 < a)) x = readOctet m x := by
  have h := readOctet_append (m.takeWhile (fun c => c.1 < a)) (m.dropWhile (fun c => c.1 < a)) x
  rw [List.takeWhile_append_dropWhile] at h
  rw [h, readOctet_eq_none (m := m.takeWhile _), Option.none_or]
  intro c hc
  have := mem_takeWhile_below hc
  omega

/-- What one octet reads as after a write: the octet written inside the range, and what it read as
before outside it. -/
theorem readOctet_writeOctets {m : Memory} (hm : Memory.wf m) (a : Nat) (bs : List Byte) (x : Nat) :
    readOctet (writeOctets m a bs) x =
      if a ≤ x ∧ x < a + bs.length then bs[x - a]? else readOctet m x := by
  unfold writeOctets
  rw [readOctet_append, readOctet_append, readOctet_cellsAt]
  by_cases h : a ≤ x ∧ x < a + bs.length
  · rw [if_pos h, readOctet_eq_none (m := m.takeWhile _), Option.none_or, if_pos h.1]
    · rw [List.getElem?_eq_getElem (by omega), Option.some_or]
    · intro c hc
      have := mem_takeWhile_below hc
      omega
  · rw [if_neg h]
    by_cases h1 : x < a
    · rw [readOctet_takeWhile hm h1, if_neg (by omega), Option.or_none,
        readOctet_eq_none (m := m.dropWhile _), Option.or_none]
      intro c hc
      have := mem_dropWhile_below hm hc
      omega
    · rw [readOctet_eq_none (m := m.takeWhile _), Option.none_or, if_pos (by omega),
        List.getElem?_eq_none (by omega), Option.none_or, readOctet_dropWhile (by omega)]
      intro c hc
      have := mem_takeWhile_below hc
      omega

/-- The octet at a written address is the octet written. -/
theorem readOctet_writeOctets_inside {m : Memory} (hm : Memory.wf m) {a x : Nat} {bs : List Byte}
    (h : a ≤ x) (h' : x < a + bs.length) : readOctet (writeOctets m a bs) x = bs[x - a]? := by
  rw [readOctet_writeOctets hm, if_pos ⟨h, h'⟩]

/-- An address outside the written range reads as before. -/
theorem readOctet_writeOctets_outside {m : Memory} (hm : Memory.wf m) {a x : Nat} {bs : List Byte}
    (h : x < a ∨ a + bs.length ≤ x) : readOctet (writeOctets m a bs) x = readOctet m x := by
  rw [readOctet_writeOctets hm, if_neg (by omega)]

/-! ### Reading a range -/

@[simp] theorem readOctets_zero (m : Memory) (a : Nat) : readOctets m a 0 = some [] := by
  cases m <;> rfl

/-- Reading a range is reading its octets one by one. -/
theorem readOctets_eq_some_iff {m : Memory} (hm : Memory.wf m) {a n : Nat} {bs : List Byte} :
    readOctets m a n = some bs ↔
      bs.length = n ∧ ∀ i, i < n → readOctet m (a + i) = bs[i]? := by
  induction m generalizing a n bs with
  | nil =>
    cases n with
    | zero => cases bs <;> simp
    | succ n =>
      simp only [readOctets, reduceCtorEq, false_iff, not_and]
      intro hl h
      have := h 0 (by omega)
      rw [List.getElem?_eq_getElem (by omega)] at this
      simp at this
  | cons c m ih =>
    obtain ⟨k, v⟩ := c
    rw [wf_cons] at hm
    cases n with
    | zero => cases bs <;> simp
    | succ n =>
      simp only [readOctets]
      by_cases h1 : k < a
      · rw [if_pos h1, ih hm.2]
        refine and_congr_right fun _ => forall_congr' fun i => ?_
        simp only [readOctet, if_neg (show k ≠ a + i by omega)]
      · rw [if_neg h1]
        have miss : ∀ x, x ≤ k → readOctet m x = none := fun x hx =>
          readOctet_eq_none fun c hc => by have := hm.1 c hc; simp only at this; omega
        by_cases h2 : k = a
        · subst h2
          simp only [if_true, Option.map_eq_some_iff]
          constructor
          · rintro ⟨rest, hr, rfl⟩
            obtain ⟨hl, hg⟩ := (ih hm.2).mp hr
            refine ⟨by simp [hl], fun i hi => ?_⟩
            cases i with
            | zero => simp [readOctet]
            | succ i =>
              have := hg i (by omega)
              rw [show k + 1 + i = k + (i + 1) by omega] at this
              simp [readOctet, this]
          · rintro ⟨hl, hg⟩
            cases bs with
            | nil => simp at hl
            | cons b rest =>
              have h0 := hg 0 (by omega)
              simp only [Nat.add_zero, readOctet, if_true, List.getElem?_cons_zero,
                Option.some.injEq] at h0
              subst h0
              refine ⟨rest, (ih hm.2).mpr ⟨by simpa using hl, fun i hi => ?_⟩, rfl⟩
              have := hg (i + 1) (by omega)
              simp only [readOctet, if_neg (show k ≠ k + (i + 1) by omega),
                List.getElem?_cons_succ] at this
              rw [show k + 1 + i = k + (i + 1) by omega, this]
        · simp only [if_neg h2, reduceCtorEq, false_iff, not_and]
          intro hl h
          have := h 0 (by omega)
          rw [List.getElem?_eq_getElem (by omega), Nat.add_zero, readOctet, if_neg h2,
            miss a (by omega)] at this
          simp at this

/-- A range whose octets all hold a value can be read. -/
theorem exists_readOctets {m : Memory} (hm : Memory.wf m) {a n : Nat}
    (h : ∀ i, i < n → ∃ b, readOctet m (a + i) = some b) : ∃ bs, readOctets m a n = some bs := by
  induction n generalizing a with
  | zero => exact ⟨[], by simp⟩
  | succ n ih =>
    obtain ⟨b, hb⟩ := h 0 (by omega)
    obtain ⟨bs, hbs⟩ := ih (a := a + 1) fun i hi => by
      have := h (i + 1) (by omega)
      rwa [show a + (i + 1) = a + 1 + i by omega] at this
    refine ⟨b :: bs, (readOctets_eq_some_iff hm).mpr ⟨by simp [readOctets_length hbs], fun i hi => ?_⟩⟩
    cases i with
    | zero => simpa using hb
    | succ i =>
      have := ((readOctets_eq_some_iff hm).mp hbs).2 i (by omega)
      rw [show a + (i + 1) = a + 1 + i by omega, this]
      rfl

/-- Two memories that agree on a range read alike there. -/
theorem readOctets_congr {m m' : Memory} (hm : Memory.wf m) (hm' : Memory.wf m') {a n : Nat}
    (h : ∀ i, i < n → readOctet m (a + i) = readOctet m' (a + i)) :
    readOctets m a n = readOctets m' a n := by
  apply Option.ext
  intro bs
  rw [readOctets_eq_some_iff hm, readOctets_eq_some_iff hm']
  exact and_congr_right fun _ => forall_congr' fun i => forall_congr' fun hi => by rw [h i hi]

/-! ### FB as one list of octets -/

/-- A canonical memory whose addresses below `n`, and no others, hold a value is the cells of one list
of `n` octets. -/
theorem memory_eq_cellsAt {m : Memory} (hm : Memory.wf m) {n : Nat}
    (hin : ∀ x, x < n → ∃ b, readOctet m x = some b)
    (hout : ∀ x b, readOctet m x = some b → x < n) :
    ∃ bs : List Byte, bs.length = n ∧ m = cellsAt 0 bs := by
  suffices H : ∀ (m : Memory) (a n : Nat), Memory.wf m → (∀ c ∈ m, a ≤ c.1) →
      (∀ x, a ≤ x → x < a + n → ∃ b, readOctet m x = some b) →
      (∀ x b, readOctet m x = some b → x < a + n) →
      ∃ bs : List Byte, bs.length = n ∧ m = cellsAt a bs from by
    simpa using H m 0 n hm (by simp) (by simpa using hin) (by simpa using hout)
  clear hin hout hm m n
  intro m
  induction m with
  | nil =>
    intro a n _ _ hin _
    cases n with
    | zero => exact ⟨[], rfl, rfl⟩
    | succ n => obtain ⟨b, hb⟩ := hin a (by omega) (by omega); simp at hb
  | cons c m ih =>
    intro a n hm hlow hin hout
    obtain ⟨k, v⟩ := c
    rw [wf_cons] at hm
    have hk : k < a + n := hout k v (by simp [readOctet])
    have hak : a ≤ k := hlow (k, v) (by simp)
    have hka : k = a := by
      by_contra hne
      obtain ⟨b, hb⟩ := hin a (by omega) (by omega)
      rw [readOctet, if_neg hne, readOctet_eq_none] at hb
      · simp at hb
      · intro c hc
        have := hm.1 c hc
        simp only at this
        omega
    subst hka
    obtain ⟨n, rfl⟩ : ∃ n', n = n' + 1 := ⟨n - 1, by omega⟩
    obtain ⟨bs, hl, rfl⟩ := ih (k + 1) n hm.2 (fun c hc => hm.1 c hc)
      (fun x h1 h2 => by
        obtain ⟨b, hb⟩ := hin x (by omega) (by omega)
        rw [readOctet, if_neg (by omega)] at hb
        exact ⟨b, hb⟩)
      (fun x b hb => by
        have hx := readOctet_mem hb
        have h1 := hm.1 _ hx
        have := hout x b (by rw [readOctet, if_neg (by simp only at h1; omega)]; exact hb)
        omega)
    exact ⟨v :: bs, by simp [hl], rfl⟩

theorem takeWhile_cellsAt (a x : Nat) (bs : List Byte) :
    (cellsAt x bs).takeWhile (fun c => c.1 < a) = cellsAt x (bs.take (a - x)) := by
  induction bs generalizing x with
  | nil => simp
  | cons b bs ih =>
    by_cases h : x < a
    · rw [show a - x = (a - (x + 1)) + 1 by omega]
      simp [h, ih]
    · rw [show a - x = 0 by omega]
      simp [h]

theorem dropWhile_cellsAt (a x : Nat) (bs : List Byte) (h : x ≤ a) :
    (cellsAt x bs).dropWhile (fun c => c.1 < a) = cellsAt a (bs.drop (a - x)) := by
  induction bs generalizing x with
  | nil => simp
  | cons b bs ih =>
    by_cases hx : x < a
    · rw [show a - x = (a - (x + 1)) + 1 by omega]
      simp [hx, ih (x + 1) (by omega)]
    · rw [show a = x by omega]
      simp

/-- A write in bounds, where FB is one list of octets, replaces a part of the list. -/
theorem writeOctets_cellsAt {bytes : List Byte} {a : Nat} {bs : List Byte}
    (h : a + bs.length ≤ bytes.length) :
    writeOctets (cellsAt 0 bytes) a bs
      = cellsAt 0 (bytes.take a ++ bs ++ bytes.drop (a + bs.length)) := by
  unfold writeOctets
  rw [takeWhile_cellsAt, dropWhile_cellsAt _ _ _ (by omega), cellsAt_append, cellsAt_append]
  simp [List.length_take, Nat.min_eq_left (show a ≤ bytes.length by omega)]

/-- A read in bounds, where FB is one list of octets, is a part of the list. -/
theorem readOctets_cellsAt {bytes : List Byte} {a n : Nat} (h : a + n ≤ bytes.length) :
    readOctets (cellsAt 0 bytes) a n = some ((bytes.drop a).take n) := by
  rw [readOctets_eq_some_iff (cellsAt_wf 0 bytes)]
  refine ⟨by simp; omega, fun i hi => ?_⟩
  rw [readOctet_cellsAt, if_pos (by omega), List.getElem?_take_of_lt hi, List.getElem?_drop]
  simp

end Sys2Proof.Machine
end

