-- ==== Sys2Proof/Laws/Ops.lean ====
section
/-! SUPPORT. What each shared operation can do, said once. -/

namespace Sys2Proof.Machine

/-! ### FB access -/

@[simp] theorem inBuffer_some (c a n : Nat) : inBuffer (some c) a n = decide (a + n ≤ c) := rfl

theorem inBuffer_cases {cap : Option Nat} {a n : Nat} (h : inBuffer cap a n = true) :
    ∃ c, cap = some c ∧ a + n ≤ c := by
  cases cap with
  | none => simp [inBuffer] at h
  | some c => exact ⟨c, rfl, by simpa using h⟩

theorem memWrite_ok {s : State} {c a : Nat} {bs : List Byte} (hc : s.cap = some c)
    (h : a + bs.length ≤ c) : memWrite s a bs = .ok { s with fb := writeOctets s.fb a bs } := by
  simp [memWrite, hc, h]

/-- A MemWrite that answers a state changes FB and nothing else, in bounds. -/
theorem memWrite_cases {s t : State} {a : Nat} {bs : List Byte} (h : memWrite s a bs = .ok t) :
    ∃ c, s.cap = some c ∧ a + bs.length ≤ c ∧ t = { s with fb := writeOctets s.fb a bs } := by
  unfold memWrite at h
  split at h
  · next hb =>
    obtain ⟨c, hc, hle⟩ := inBuffer_cases hb
    exact ⟨c, hc, hle, (Except.ok.inj h).symm⟩
  · cases h

theorem memRead_ok {s : State} {c a n : Nat} {bs : List Byte} (hc : s.cap = some c)
    (h : a + n ≤ c) (hr : readOctets s.fb a n = some bs) :
    memRead s a n = .ok ⟨bs, readOctets_length hr⟩ := by
  unfold memRead
  rw [if_pos (by simpa [hc] using h)]
  split
  · next bs' h' =>
    obtain rfl : bs' = bs := by rw [h'] at hr; exact Option.some.inj hr
    rfl
  · next h' => rw [h'] at hr; cases hr

/-- A MemRead that answers octets answers those FB holds, in bounds. -/
theorem memRead_cases {s : State} {a n : Nat} {b : Octets n} (h : memRead s a n = .ok b) :
    ∃ c, s.cap = some c ∧ a + n ≤ c ∧ readOctets s.fb a n = some b.val := by
  unfold memRead at h
  split at h
  · next hb =>
    obtain ⟨c, hc, hle⟩ := inBuffer_cases hb
    refine ⟨c, hc, hle, ?_⟩
    split at h
    · next bs hbs => cases h; exact hbs
    · cases h
  · cases h

theorem writeField16_ok {s : State} {c a v : Nat} (hc : s.cap = some c) (h : a + 2 ≤ c)
    (hv : v < 2 ^ 16) :
    writeField16 s a v
      = .ok { s with fb := writeOctets s.fb a (encodeBe 2 (BitVec.ofNat 16 v)) } := by
  rw [writeField16, if_pos hv]
  exact memWrite_ok hc (by simpa [encodeBe_length] using h)

/-- A field write that answers a state changes FB and nothing else, in bounds, with a value that fits. -/
theorem writeField16_cases {s t : State} {a v : Nat} (h : writeField16 s a v = .ok t) :
    v < 2 ^ 16 ∧ ∃ c, s.cap = some c ∧ a + 2 ≤ c ∧
      t = { s with fb := writeOctets s.fb a (encodeBe 2 (BitVec.ofNat 16 v)) } := by
  unfold writeField16 at h
  split at h
  · next hv =>
    obtain ⟨c, hc, hb, ht⟩ := memWrite_cases h
    exact ⟨hv, c, hc, by simpa [encodeBe_length] using hb, ht⟩
  · cases h

/-! ### Taking a command and ending it -/

theorem whenTaken_idle {s : State} (h : s.pending = false) (k : Result) : whenTaken s k = k := by
  simp [whenTaken, h]

theorem whenTaken_pending {s : State} (h : s.pending = true) (k : Result) :
    whenTaken s k = .refused .commandWhilePending := by
  simp [whenTaken, h]

/-- A command that answers a next state was taken while PENDING = 0. -/
theorem whenTaken_next {s t : State} {k : Result} (h : whenTaken s k = .next t) :
    s.pending = false ∧ k = .next t := by
  cases hp : s.pending with
  | true => rw [whenTaken_pending hp] at h; cases h
  | false => rw [whenTaken_idle hp] at h; exact ⟨rfl, h⟩

@[simp] theorem afterAccess_ok {α : Type} (v : α) (k : α → Result) :
    afterAccess (.ok v) k = k v := rfl

@[simp] theorem afterAccess_error {α : Type} (f : Fault) (k : α → Result) :
    afterAccess (.error f) k = .fault f := rfl

/-- What follows FB accesses answers a next state only where they all succeeded. -/
theorem afterAccess_next {α : Type} {x : Except Fault α} {k : α → Result} {t : State}
    (h : afterAccess x k = .next t) : ∃ v, x = .ok v ∧ k v = .next t := by
  cases x with
  | ok v => exact ⟨v, rfl, h⟩
  | error f => cases h

/-! ### The next input -/

@[simp] theorem nextInput_nil (p : Bool) : nextInput p [] = none := by cases p <;> rfl

@[simp] theorem nextInput_idle (i : Input) (rest : List Input) :
    nextInput false (i :: rest) = some (i, rest) := rfl

/-- While PENDING = 1 the input taken is the first that is no command, and the commands before it
stay. -/
theorem nextInput_pending_cases {l left : List Input} {i : Input}
    (h : nextInput true l = some (i, left)) :
    (∀ p, i ≠ .command p) ∧ ∃ held rest, l = held ++ i :: rest ∧ left = held ++ rest ∧
      ∀ j ∈ held, ∃ p, j = .command p := by
  induction l generalizing left with
  | nil => simp at h
  | cons j l ih =>
    cases j with
    | command p =>
      simp only [nextInput, Option.map_eq_some_iff, Prod.mk.injEq] at h
      obtain ⟨⟨i', left'⟩, h', rfl, rfl⟩ := h
      obtain ⟨hi, held, rest, rfl, rfl, hh⟩ := ih h'
      exact ⟨hi, .command p :: held, rest, rfl, rfl, by simpa using hh⟩
    | reset =>
      simp only [nextInput, Option.some.injEq, Prod.mk.injEq] at h
      obtain ⟨rfl, rfl⟩ := h
      exact ⟨by simp, [], l, rfl, rfl, by simp⟩
    | txAnswer q r =>
      simp only [nextInput, Option.some.injEq, Prod.mk.injEq] at h
      obtain ⟨rfl, rfl⟩ := h
      exact ⟨by simp, [], l, rfl, rfl, by simp⟩

/-- Commands presented while PENDING = 1 are passed over. -/
theorem nextInput_held {held : List Input} (h : ∀ j ∈ held, ∃ p, j = .command p) (i : Input)
    (hi : ∀ p, i ≠ .command p) (rest : List Input) :
    nextInput true (held ++ i :: rest) = some (i, held ++ rest) := by
  induction held with
  | nil =>
    cases i with
    | command p => exact absurd rfl (hi p)
    | reset => rfl
    | txAnswer q r => rfl
  | cons j held ih =>
    obtain ⟨p, rfl⟩ := h j (by simp)
    simp [nextInput, ih fun j hj => h j (by simp [hj])]

/-- Where only commands are presented while PENDING = 1, nothing is taken. -/
theorem nextInput_only_commands {l : List Input} (h : ∀ j ∈ l, ∃ p, j = .command p) :
    nextInput true l = none := by
  induction l with
  | nil => rfl
  | cons j l ih =>
    obtain ⟨p, rfl⟩ := h j (by simp)
    simp [nextInput, ih fun j hj => h j (by simp [hj])]

/-! ### What a step can do -/

/-- Phase B always answers a next state, with one response, PENDING cleared. -/
theorem sendPhaseB_cases (r : TxResponse) (s : State) :
    (sendPhaseB r s = .next (respond .transmitError [] { s with pending := false }) ∧
        (r = .fail ∨ r = .count 0)) ∨
    (∃ n, r = .count n ∧ n ≠ 0 ∧
      sendPhaseB r s
        = .next (respond .ok (encodeBe 4 n) { s with pending := false, phase := .sent })) := by
  cases r with
  | fail => exact .inl ⟨rfl, .inl rfl⟩
  | count n =>
    by_cases h : n = 0
    · subst h; exact .inl ⟨rfl, .inr rfl⟩
    · exact .inr ⟨n, rfl, h, by simp only [sendPhaseB, if_neg h, answerOk]⟩

/-- Everything one step can do: wait; run or answer the packet at the head while PENDING = 0; reset;
drop an answer nothing waits for; or run phase B. -/
theorem step_cases (s : State) :
    (nextInput s.pending s.inputs = none ∧ step s = .next s) ∨
    (∃ p left, s.pending = false ∧ s.inputs = .command p :: left ∧
      step s = runPacket p { s with inputs := left }) ∨
    (∃ left, nextInput s.pending s.inputs = some (.reset, left) ∧
      step s = .next (applyReset { s with inputs := left })) ∨
    (∃ q r left, nextInput s.pending s.inputs = some (.txAnswer q r, left) ∧
      ¬ (s.pending = true ∧ q = s.txRequests.length) ∧
      step s = .next { s with inputs := left }) ∨
    (∃ q r left, nextInput s.pending s.inputs = some (.txAnswer q r, left) ∧
      s.pending = true ∧ q = s.txRequests.length ∧
      step s = sendPhaseB r { s with inputs := left }) := by
  unfold step
  cases hn : nextInput s.pending s.inputs with
  | none => exact .inl ⟨rfl, rfl⟩
  | some x =>
    obtain ⟨i, left⟩ := x
    cases i with
    | command p =>
      refine .inr (.inl ⟨p, left, ?_⟩)
      cases hp : s.pending with
      | true =>
        rw [hp] at hn
        exact absurd rfl ((nextInput_pending_cases hn).1 p)
      | false =>
        rw [hp] at hn
        cases hl : s.inputs with
        | nil => simp [hl] at hn
        | cons j l =>
          rw [hl, nextInput_idle, Option.some.injEq, Prod.mk.injEq] at hn
          exact ⟨rfl, by rw [hn.1, hn.2], rfl⟩
    | reset => exact .inr (.inr (.inl ⟨left, rfl, rfl⟩))
    | txAnswer q r =>
      by_cases h : s.pending = true ∧ q = s.txRequests.length
      · refine .inr (.inr (.inr (.inr ⟨q, r, left, rfl, h.1, h.2, ?_⟩)))
        simp [takeTxAnswer, answersPending, h.1, h.2]
      · refine .inr (.inr (.inr (.inl ⟨q, r, left, rfl, h, ?_⟩)))
        have : answersPending q { s with inputs := left } = false := by
          simpa [answersPending] using h
        simp [takeTxAnswer, this]

end Sys2Proof.Machine
end

