-- ==== Sys2Proof/Laws/Builder.lean ====
section
/-! SUPPORT. The frame builder's three sequences of FB accesses, where FB is one list of octets: what
each leaves, said once. -/

namespace Sys2Proof.Machine

/-- The poison fill over a memory with nothing at or above CAP leaves CAP poison octets. -/
theorem poisonFill {m : Memory} {c : Nat} (hout : ∀ x b, readOctet m x = some b → x < c) :
    writeOctets m 0 (List.replicate c poison) = cellsAt 0 (List.replicate c poison) := by
  have h1 : m.takeWhile (fun c => decide (c.1 < 0)) = [] := by
    cases m with
    | nil => rfl
    | cons d m => simp
  have h2 : m.dropWhile (fun d => decide (d.1 < 0 + (List.replicate c poison).length)) = [] := by
    rw [List.dropWhile_eq_nil_iff]
    intro d hd
    have : ∃ b, readOctet m d.1 = some b := by
      clear h1 hout
      induction m with
      | nil => simp at hd
      | cons e m ih =>
        obtain ⟨k, v⟩ := e
        by_cases hk : k = d.1
        · exact ⟨v, by simp [readOctet, hk]⟩
        · rcases List.mem_cons.mp hd with rfl | hd
          · exact absurd rfl hk
          · simpa [readOctet, hk] using ih hd
    obtain ⟨b, hb⟩ := this
    simpa using hout _ _ hb
  unfold writeOctets
  rw [h1, h2]
  simp

/-- The 42 header octets BUILD_HEADER leaves, the eight unset ones poison (spec/42_builder.md R187,
R188). -/
def builtHeader (ipId : BitVec 16) (p : FrameParams) : List Byte :=
  p.dstMac.val ++ p.srcMac.val ++ encodeBe 2 ethertypeIpv4 ++ [ipVihl, ipTos, poison, poison]
    ++ encodeBe 2 ipId ++ encodeBe 2 ipFlagsFrag ++ [ipTtl, ipProtoUdp, poison, poison]
    ++ p.srcIp.val ++ p.dstIp.val ++ encodeBe 2 p.srcPort ++ encodeBe 2 p.dstPort
    ++ [poison, poison, poison, poison]

theorem builtHeader_length (ipId : BitVec 16) (p : FrameParams) : (builtHeader ipId p).length = 42 := by
  have h1 := p.dstMac.property
  have h2 := p.srcMac.property
  have h3 := p.srcIp.property
  have h4 := p.dstIp.property
  simp [builtHeader, encodeBe_length, h1, h2, h3, h4]

theorem exists_encodeBe_two (v : BitVec 16) : ∃ a b, encodeBe 2 v = [a, b] := ⟨_, _, rfl⟩

/-- The header writes of BUILD_HEADER: FB becomes the header octets and poison up to CAP, and nothing
else changes. -/
theorem writeHeaders_ok {s : State} {c : Nat} (p : FrameParams) (hc : s.cap = some c) (h42 : 42 ≤ c)
    (hout : ∀ x b, readOctet s.fb x = some b → x < c) :
    writeHeaders p.srcMac.val p.dstMac.val p.srcIp.val p.dstIp.val p.srcPort p.dstPort c s
      = .ok { s with fb := cellsAt 0 (builtHeader s.ipId p ++ List.replicate (c - 42) poison) } := by
  obtain ⟨k, rfl⟩ : ∃ k, c = k + 42 := ⟨c - 42, by omega⟩
  obtain ⟨⟨sm, hsm⟩, ⟨dm, hdm⟩, ⟨si, hsi⟩, ⟨di, hdi⟩, sp, dp⟩ := p
  obtain ⟨a1, a2, ha⟩ := exists_encodeBe_two s.ipId
  obtain ⟨b1, b2, hb⟩ := exists_encodeBe_two sp
  obtain ⟨c1, c2, hcc⟩ := exists_encodeBe_two dp
  obtain ⟨d1, d2, hd⟩ := exists_encodeBe_two ethertypeIpv4
  obtain ⟨e1, e2, he⟩ := exists_encodeBe_two ipFlagsFrag
  match sm, hsm, dm, hdm, si, hsi, di, hdi with
  | [s0, s1, s2, s3, s4, s5], _, [m0, m1, m2, m3, m4, m5], _, [x0, x1, x2, x3], _,
      [y0, y1, y2, y3], _ =>
    have hfill := poisonFill hout
    have hrep : List.replicate (k + 42) poison = List.replicate 42 poison ++ List.replicate k poison := by
      rw [Nat.add_comm, List.replicate_add]
    simp only [writeHeaders, memWrite, hc, hb, hcc, hd, he, bind, Except.bind, hfill,
      inBuffer_some, List.length_replicate, Nat.zero_add, Nat.le_refl, decide_true, if_true]
    rw [hrep]
    simp [-cellsAt_cons, writeOctets_cellsAt, builtHeader, ha, hb, hcc, hd, he, List.replicate_succ]

/-- FB after SEND phase A, from what it was before (spec/42_builder.md R191 to R195). -/
def finishedOctets (bytes payload : List Byte) (csum : BitVec 16) : List Byte :=
  bytes.take 16 ++ encodeBe 2 (BitVec.ofNat 16 (28 + payload.length)) ++ (bytes.drop 18).take 6
    ++ encodeBe 2 csum ++ (bytes.drop 26).take 12
    ++ encodeBe 2 (BitVec.ofNat 16 (8 + payload.length)) ++ [0x00, 0x00]
    ++ payload ++ bytes.drop (42 + payload.length)

/-- The IPv4 header the checksum of SEND is computed over (spec/42_builder.md R193). -/
def headerToSum (bytes : List Byte) (l : Nat) : List Byte :=
  (bytes.drop 14).take 2 ++ encodeBe 2 (BitVec.ofNat 16 (28 + l)) ++ (bytes.drop 18).take 6
    ++ [0x00, 0x00] ++ (bytes.drop 26).take 8

theorem headerToSum_length {bytes : List Byte} (h : 42 ≤ bytes.length) (l : Nat) :
    (headerToSum bytes l).length = 20 := by
  simp [headerToSum, encodeBe_length]
  omega

/-! ### FB in blocks -/

theorem exists_split {l : List Byte} (n : Nat) (h : n ≤ l.length) :
    ∃ a r, l = a ++ r ∧ a.length = n :=
  ⟨l.take n, l.drop n, (List.take_append_drop n l).symm, by simp [h]⟩

/-- A write over one block of FB. -/
theorem memWrite_block {s : State} {a : Nat} {bs : List Byte} (X old Y : List Byte)
    (hfb : s.fb = cellsAt 0 (X ++ old ++ Y)) (hc : s.cap = some (X ++ old ++ Y).length)
    (hX : X.length = a) (hl : old.length = bs.length) :
    memWrite s a bs = .ok { s with fb := cellsAt 0 (X ++ bs ++ Y) } := by
  have hb : a + bs.length ≤ (X ++ old ++ Y).length := by simp; omega
  rw [memWrite_ok hc hb, hfb, writeOctets_cellsAt hb]
  subst hX
  rw [← hl, List.append_assoc X old Y, List.take_left, ← List.append_assoc X old Y,
    ← List.length_append, List.drop_left]

/-- A field write over one block of FB. -/
theorem writeField16_block {s : State} {a v : Nat} (X old Y : List Byte)
    (hfb : s.fb = cellsAt 0 (X ++ old ++ Y)) (hc : s.cap = some (X ++ old ++ Y).length)
    (hX : X.length = a) (hl : old.length = 2) (hv : v < 2 ^ 16) :
    writeField16 s a v
      = .ok { s with fb := cellsAt 0 (X ++ encodeBe 2 (BitVec.ofNat 16 v) ++ Y) } := by
  rw [writeField16, if_pos hv]
  exact memWrite_block X old Y hfb hc hX (by rw [hl, encodeBe_length])

/-- A read of one block of FB. -/
theorem memRead_block {s : State} {a n : Nat} (X b Y : List Byte)
    (hfb : s.fb = cellsAt 0 (X ++ b ++ Y)) (hc : s.cap = some (X ++ b ++ Y).length)
    (hX : X.length = a) (hl : b.length = n) : memRead s a n = .ok ⟨b, hl⟩ := by
  have hb : a + n ≤ (X ++ b ++ Y).length := by simp; omega
  refine memRead_ok hc hb ?_
  subst hX hl
  rw [hfb, readOctets_cellsAt hb, List.append_assoc, List.drop_left, List.take_left]

/-- The five writes of SEND phase A, where FB is one list of octets and the payload fits. -/
theorem finalizeFrame_ok {s : State} {bytes payload : List Byte} (hc : s.cap = some bytes.length)
    (hfb : s.fb = cellsAt 0 bytes) (hfit : 42 + payload.length ≤ bytes.length)
    (hmax : bytes.length ≤ 65549) :
    finalizeFrame payload s
      = .ok { s with fb := cellsAt 0 (finishedOctets bytes payload
          (ipChecksum ⟨headerToSum bytes payload.length,
            headerToSum_length (by omega) payload.length⟩)) } := by
  have hlen := encodeBe_length 2
  obtain ⟨A, r, rfl, hA⟩ := exists_split (l := bytes) 14 (by omega)
  simp only [List.length_append] at hfit hmax
  obtain ⟨A', r, rfl, hA'⟩ := exists_split (l := r) 2 (by omega)
  simp only [List.length_append] at hfit hmax
  obtain ⟨B, r, rfl, hB⟩ := exists_split (l := r) 2 (by omega)
  simp only [List.length_append] at hfit hmax
  obtain ⟨C, r, rfl, hC⟩ := exists_split (l := r) 6 (by omega)
  simp only [List.length_append] at hfit hmax
  obtain ⟨D, r, rfl, hD⟩ := exists_split (l := r) 2 (by omega)
  simp only [List.length_append] at hfit hmax
  obtain ⟨E, r, rfl, hE⟩ := exists_split (l := r) 8 (by omega)
  simp only [List.length_append] at hfit hmax
  obtain ⟨E', r, rfl, hE'⟩ := exists_split (l := r) 4 (by omega)
  simp only [List.length_append] at hfit hmax
  obtain ⟨F, r, rfl, hF⟩ := exists_split (l := r) 2 (by omega)
  simp only [List.length_append] at hfit hmax
  obtain ⟨G, r, rfl, hG⟩ := exists_split (l := r) 2 (by omega)
  simp only [List.length_append] at hfit hmax
  obtain ⟨P, R, rfl, hP⟩ := exists_split (l := r) payload.length (by omega)
  simp only [List.length_append] at hfit hmax
  generalize hTe : encodeBe 2 (BitVec.ofNat 16 (28 + payload.length)) = T at *
  generalize hUe : encodeBe 2 (BitVec.ofNat 16 (8 + payload.length)) = U at *
  have hT : T.length = 2 := by rw [← hTe, hlen]
  have hU : U.length = 2 := by rw [← hUe, hlen]
  have hblocks : A ++ (A' ++ (B ++ (C ++ (D ++ (E ++ (E' ++ (F ++ (G ++ (P ++ R)))))))))
      = A ++ A' ++ B ++ C ++ D ++ E ++ E' ++ F ++ G ++ P ++ R := by simp
  rw [hblocks] at hc hfb
  have hhdr : headerToSum (A ++ (A' ++ (B ++ (C ++ (D ++ (E ++ (E' ++ (F ++ (G ++ (P ++ R))))))))))
      payload.length = A' ++ T ++ C ++ [0x00, 0x00] ++ E := by
    simp [headerToSum, List.drop_append, hA, hA', hB, hC, hD, hE, List.drop_of_length_le, hTe]
  have hfin : ∀ c, finishedOctets (A ++ (A' ++ (B ++ (C ++ (D ++ (E ++ (E' ++ (F ++ (G ++ (P ++ R))))))))))
      payload c = A ++ A' ++ T ++ C ++ encodeBe 2 c ++ E ++ E' ++ U ++ [0x00, 0x00] ++ payload ++ R := by
    intro c
    have hdrop : (A ++ (A' ++ (B ++ (C ++ (D ++ (E ++ (E' ++ (F ++ (G ++ (P ++ R)))))))))).drop
        (42 + payload.length) = R := by
      rw [hblocks, List.drop_left']
      simp only [List.length_append]
      omega
    rw [finishedOctets, hdrop]
    simp [List.take_append, List.drop_append, hA, hA', hB, hC, hD, hE, hE',
      List.take_of_length_le, List.drop_of_length_le, hTe, hUe]
  have hsum : ∀ h : (headerToSum (A ++ (A' ++ (B ++ (C ++ (D ++ (E ++ (E' ++ (F ++ (G ++ (P ++ R))))))))))
      payload.length).length = 20,
      (⟨_, h⟩ : Octets 20) = ⟨A' ++ T ++ C ++ [0x00, 0x00] ++ E, hhdr ▸ h⟩ := fun h => Subtype.ext hhdr
  have hw2 : ipTotalLength payload.length = 28 + payload.length := by simp [ipTotalLength, ipHlen, udpHlen]
  have hw4 : udpLength payload.length = 8 + payload.length := by simp [udpLength, udpHlen]
  have hcap : s.cap = some (42 + payload.length + R.length) := by
    rw [hc]
    simp only [List.length_append]
    congr 1
    omega
  have hz : ([0x00, 0x00] : List Byte).length = 2 := rfl
  unfold finalizeFrame
  rw [hw2, hw4, hsum, hfin,
    memWrite_block (A ++ A' ++ B ++ C ++ D ++ E ++ E' ++ F ++ G) P R hfb hc
      (by simp only [List.length_append]; omega) hP]
  simp only [bind, Except.bind]
  rw [writeField16_block (A ++ A') B (C ++ D ++ E ++ E' ++ F ++ G ++ payload ++ R) (by simp)
      (by simp only [hcap, List.length_append]; congr 1; omega)
      (by simp only [List.length_append]; omega) hB (by omega), hTe]
  simp only []
  rw [memWrite_block (A ++ A' ++ T ++ C) D (E ++ E' ++ F ++ G ++ payload ++ R) (by simp)
      (by simp only [hcap, List.length_append]; congr 1; omega)
      (by simp only [List.length_append]; omega) (by rw [hD, hz])]
  simp only []
  rw [memRead_block A (A' ++ T ++ C ++ [0x00, 0x00] ++ E) (E' ++ F ++ G ++ payload ++ R) (by simp)
      (by simp only [hcap, List.length_append, hz]; congr 1; omega) hA
      (by simp only [List.length_append, hz]; omega)]
  simp only []
  generalize hKe : encodeBe 2 (ipChecksum ⟨A' ++ T ++ C ++ [0x00, 0x00] ++ E, _⟩) = K
  have hK : K.length = 2 := by rw [← hKe, hlen]
  rw [memWrite_block (A ++ A' ++ T ++ C) [0x00, 0x00] (E ++ E' ++ F ++ G ++ payload ++ R) (by simp)
      (by simp only [hcap, List.length_append, hz]; congr 1; omega)
      (by simp only [List.length_append]; omega) (by rw [hK, hz])]
  simp only []
  rw [writeField16_block (A ++ A' ++ T ++ C ++ K ++ E ++ E') F (G ++ payload ++ R) (by simp)
      (by simp only [hcap, List.length_append]; congr 1; omega)
      (by simp only [List.length_append]; omega) hF (by omega), hUe]
  simp only []
  rw [memWrite_block (A ++ A' ++ T ++ C ++ K ++ E ++ E' ++ U) G (payload ++ R) (by simp)
      (by simp only [hcap, List.length_append]; congr 1; omega)
      (by simp only [List.length_append]; omega) (by rw [hlen, hG]),
    show encodeBe 2 (udpCsumValue Config.udpCsumMode) = [0x00, 0x00] by decide]
  simp

/-- Effects (6) and (7): the request carries FB's first octets, and nothing but the TX port and
PENDING changes. -/
theorem handOff_ok {s : State} {bytes payload : List Byte} (hc : s.cap = some bytes.length)
    (hfb : s.fb = cellsAt 0 bytes) (hfit : 42 + payload.length ≤ bytes.length) :
    handOff payload s
      = .ok (issueTxRequest (bytes.take 6) (bytes.take (42 + payload.length)) (42 + payload.length) s) := by
  have h1 : readOctets s.fb 0 6 = some (bytes.take 6) := by
    rw [hfb, readOctets_cellsAt (by omega), List.drop_zero]
  have hl : frameLength payload.length = 42 + payload.length := by
    simp [frameLength, ethHlen, ipHlen, udpHlen]
  have h2 : readOctets s.fb 0 (frameLength payload.length) = some (bytes.take (42 + payload.length)) := by
    rw [hfb, hl, readOctets_cellsAt (by omega), List.drop_zero]
  unfold handOff
  rw [memRead_ok hc (by omega) h1]
  simp only [bind, Except.bind]
  rw [memRead_ok hc (by omega) h2]
  simp only [hl]

/-! ### What the sequences of FB accesses can do, in every state -/

/-- From `s` to `t` nothing changed but FB, and FB only at addresses of `R`, its canonical form kept. -/
def ChangesFbAt (R : Nat → Prop) (s t : State) : Prop :=
  ∃ m, t = { s with fb := m } ∧
    (Memory.wf s.fb → Memory.wf m ∧ ∀ x, ¬ R x → readOctet m x = readOctet s.fb x)

theorem ChangesFbAt.trans {R : Nat → Prop} {s t u : State} (h : ChangesFbAt R s t)
    (h' : ChangesFbAt R t u) : ChangesFbAt R s u := by
  obtain ⟨m, rfl, hm⟩ := h
  obtain ⟨m', rfl, hm'⟩ := h'
  exact ⟨m', rfl, fun hw => ⟨(hm' (hm hw).1).1, fun x hx =>
    ((hm' (hm hw).1).2 x hx).trans ((hm hw).2 x hx)⟩⟩

theorem memWrite_changes {s t : State} {a : Nat} {bs : List Byte} {R : Nat → Prop}
    (h : memWrite s a bs = .ok t) (hR : ∀ x, a ≤ x → x < a + bs.length → R x) : ChangesFbAt R s t := by
  obtain ⟨c, _, _, rfl⟩ := memWrite_cases h
  refine ⟨_, rfl, fun hw => ⟨writeOctets_wf hw a bs, fun x hx => readOctet_writeOctets_outside hw ?_⟩⟩
  by_contra hin
  exact hx (hR x (by omega) (by omega))

theorem writeField16_changes {s t : State} {a v : Nat} {R : Nat → Prop}
    (h : writeField16 s a v = .ok t) (hR : ∀ x, a ≤ x → x < a + 2 → R x) : ChangesFbAt R s t := by
  unfold writeField16 at h
  split at h
  · exact memWrite_changes h (by simpa [encodeBe_length] using hR)
  · cases h

/-- A sequence of FB accesses that succeeds succeeded at its first. -/
theorem bind_ok {α β : Type} {x : Except Fault α} {f : α → Except Fault β} {b : β}
    (h : (x >>= f) = .ok b) : ∃ a, x = .ok a ∧ f a = .ok b := by
  cases x with
  | ok a => exact ⟨a, rfl, h⟩
  | error e => cases h

/-- Where the header writes succeed, FB below CAP is all they change. -/
theorem writeHeaders_cases {sm dm si di : List Byte} {sp dp : BitVec 16} {c : Nat} {s t : State}
    (hc : s.cap = some c) (h : writeHeaders sm dm si di sp dp c s = .ok t) :
    ChangesFbAt (· < c) s t := by
  have key : ∀ {u v : State} {a : Nat} {bs : List Byte}, u.cap = some c → memWrite u a bs = .ok v →
      ChangesFbAt (· < c) u v ∧ v.cap = some c := by
    intro u v a bs hu hv
    obtain ⟨c', hc', hle, hv'⟩ := memWrite_cases hv
    rw [hu, Option.some.injEq] at hc'
    exact ⟨memWrite_changes hv fun x _ hx => by omega, by rw [hv']; exact hu⟩
  unfold writeHeaders at h
  obtain ⟨s1, h1, h⟩ := bind_ok h
  obtain ⟨s2, h2, h⟩ := bind_ok h
  obtain ⟨s3, h3, h⟩ := bind_ok h
  obtain ⟨s4, h4, h⟩ := bind_ok h
  obtain ⟨s5, h5, h⟩ := bind_ok h
  obtain ⟨s6, h6, h⟩ := bind_ok h
  obtain ⟨s7, h7, h⟩ := bind_ok h
  obtain ⟨s8, h8, h⟩ := bind_ok h
  obtain ⟨s9, h9, h⟩ := bind_ok h
  obtain ⟨s10, h10, h⟩ := bind_ok h
  obtain ⟨s11, h11, h⟩ := bind_ok h
  obtain ⟨s12, h12, h⟩ := bind_ok h
  obtain ⟨s13, h13, h⟩ := bind_ok h
  obtain ⟨k1, c1⟩ := key hc h1
  obtain ⟨k2, c2⟩ := key c1 h2
  obtain ⟨k3, c3⟩ := key c2 h3
  obtain ⟨k4, c4⟩ := key c3 h4
  obtain ⟨k5, c5⟩ := key c4 h5
  obtain ⟨k6, c6⟩ := key c5 h6
  obtain ⟨k7, c7⟩ := key c6 h7
  obtain ⟨k8, c8⟩ := key c7 h8
  obtain ⟨k9, c9⟩ := key c8 h9
  obtain ⟨k10, c10⟩ := key c9 h10
  obtain ⟨k11, c11⟩ := key c10 h11
  obtain ⟨k12, c12⟩ := key c11 h12
  obtain ⟨k13, c13⟩ := key c12 h13
  exact k1.trans <| k2.trans <| k3.trans <| k4.trans <| k5.trans <| k6.trans <| k7.trans <|
    k8.trans <| k9.trans <| k10.trans <| k11.trans <| k12.trans <| k13.trans (key c13 h).1

/-- The addresses SEND phase A stores to (spec/10_state.md R33). -/
def sendStores (l x : Nat) : Prop :=
  (16 ≤ x ∧ x < 18) ∨ (24 ≤ x ∧ x < 26) ∨ (38 ≤ x ∧ x < 42 + l)

/-- Where the writes of SEND phase A succeed, those addresses are all they change. -/
theorem finalizeFrame_cases {payload : List Byte} {s t : State} (h : finalizeFrame payload s = .ok t) :
    ChangesFbAt (sendStores payload.length) s t := by
  unfold finalizeFrame at h
  obtain ⟨s1, h1, h⟩ := bind_ok h
  obtain ⟨s2, h2, h⟩ := bind_ok h
  obtain ⟨s3, h3, h⟩ := bind_ok h
  obtain ⟨hdr, _, h⟩ := bind_ok h
  obtain ⟨s4, h4, h⟩ := bind_ok h
  obtain ⟨s5, h5, h⟩ := bind_ok h
  refine (memWrite_changes h1 ?_).trans <| (writeField16_changes h2 ?_).trans <|
    (memWrite_changes h3 ?_).trans <| (memWrite_changes h4 ?_).trans <|
    (writeField16_changes h5 ?_).trans (memWrite_changes h ?_)
  all_goals
    intro x h1 h2
    try simp only [encodeBe_length, List.length_cons, List.length_nil] at h2
    unfold sendStores
    omega

/-- Where the handoff succeeds, it issued one request with FB's octets and set PENDING. -/
theorem handOff_cases {payload : List Byte} {s t : State} (h : handOff payload s = .ok t) :
    ∃ dst data, readOctets s.fb 0 6 = some dst ∧
      readOctets s.fb 0 (42 + payload.length) = some data ∧
      t = issueTxRequest dst data (42 + payload.length) s := by
  unfold handOff at h
  obtain ⟨dst, h1, h⟩ := bind_ok h
  obtain ⟨⟨data, hd⟩, h2, h⟩ := bind_ok h
  obtain ⟨_, _, _, r1⟩ := memRead_cases h1
  obtain ⟨_, _, _, r2⟩ := memRead_cases h2
  have hl : frameLength payload.length = 42 + payload.length := by
    simp [frameLength, ethHlen, ipHlen, udpHlen]
  simp only [hl] at r2
  refine ⟨dst.val, data, r1, r2, ?_⟩
  rw [← hl]
  exact (Except.ok.inj h).symm

end Sys2Proof.Machine
end

