-- ==== Sys2Proof/Laws/Codec.lean ====
section
/-! SUPPORT. The codec functions' small laws (spec/40_codec.md R131, R132, R147, R148, R152). -/

namespace Sys2Proof.Machine

@[simp] theorem encodeBe_length_simp (n : Nat) (v : BitVec (8 * n)) : (encodeBe n v).length = n :=
  encodeBe_length n v

@[simp] theorem encodeLe_length (n : Nat) (v : BitVec (8 * n)) : (encodeLe n v).length = n := by
  simp [encodeLe]

theorem encodeBe_getElem? (n : Nat) (v : BitVec (8 * n)) {i : Nat} (h : i < n) :
    (encodeBe n v)[i]? = some (BitVec.ofNat 8 (v.toNat >>> (8 * n - 8 - 8 * i))) := by
  simp [encodeBe, h]

theorem encodeLe_getElem? (n : Nat) (v : BitVec (8 * n)) {i : Nat} (h : i < n) :
    (encodeLe n v)[i]? = some (BitVec.ofNat 8 (v.toNat >>> (8 * i))) := by
  simp [encodeLe, h]

/-- The OR of disjoint fields is an addition (R152). -/
theorem shift_or_octet (v : Nat) (o : Byte) : (v <<< 8) ||| o.toNat = 256 * v + o.toNat := by
  rw [← Nat.shiftLeft_add_eq_or_of_lt o.isLt, Nat.shiftLeft_eq, Nat.mul_comm]

@[simp] theorem decodeBe_nil : decodeBe [] = 0 := rfl

theorem decodeBe_concat (b : List Byte) (o : Byte) :
    decodeBe (b ++ [o]) = 256 * decodeBe b + o.toNat := by
  simp [decodeBe, List.foldl_append, shift_or_octet]

@[simp] theorem decodeLe_nil : decodeLe [] = 0 := rfl

theorem decodeLe_cons (o : Byte) (b : List Byte) :
    decodeLe (o :: b) = 256 * decodeLe b + o.toNat := by
  simp [decodeLe, shift_or_octet]

/-- The value of `n` octets is below `256^n` (R132). -/
theorem decodeBe_lt (b : List Byte) : decodeBe b < 256 ^ b.length := by
  induction b using List.reverseRecOn with
  | nil => simp
  | append_singleton b o ih =>
    rw [decodeBe_concat, List.length_append, List.length_singleton, Nat.pow_succ]
    have := o.isLt
    omega

/-- The value of `n` octets is below `256^n` (R148). -/
theorem decodeLe_lt (b : List Byte) : decodeLe b < 256 ^ b.length := by
  induction b with
  | nil => simp
  | cons o b ih =>
    rw [decodeLe_cons, List.length_cons, Nat.pow_succ]
    have := o.isLt
    omega

theorem decodeBe_two (a b : Byte) : decodeBe [a, b] = 256 * a.toNat + b.toNat := by
  simp [decodeBe, shift_or_octet]

/-- A decoded value loses nothing as a word of its width (R132). -/
theorem beWord_toNat (n : Nat) (b : Octets n) : (beWord n b).toNat = decodeBe b.val := by
  have h := decodeBe_lt b.val
  rw [b.property, show (256 : Nat) = 2 ^ 8 by rfl, ← Nat.pow_mul] at h
  simp [beWord, Nat.mod_eq_of_lt h]

theorem leWord_toNat (n : Nat) (b : Octets n) : (leWord n b).toNat = decodeLe b.val := by
  have h := decodeLe_lt b.val
  rw [b.property, show (256 : Nat) = 2 ^ 8 by rfl, ← Nat.pow_mul] at h
  simp [leWord, Nat.mod_eq_of_lt h]

@[simp] theorem exactly_self {n : Nat} (b : Octets n) : exactly n b.val = some b := by
  simp [exactly, b.property]

theorem exactly_eq_some {n : Nat} {l : List Byte} {b : Octets n} :
    exactly n l = some b ↔ l = b.val := by
  unfold exactly
  constructor
  · intro h
    split at h
    · cases h; rfl
    · cases h
  · rintro rfl
    simp [b.property]

end Sys2Proof.Machine

namespace Sys2Proof

/-- The opcode octet of an opcode names it (spec/30_encoding.md R104). -/
@[simp] theorem opcodeOf_opcodeByte (o : Opcode) : opcodeOf (opcodeByte o) = some o := by
  cases o <;> decide

/-- Each row of the opcode table holds its opcode's octet (spec/30_encoding.md R104). -/
theorem opcodeTable_row : ∀ r ∈ opcodeTable, opcodeByte r.2 = r.1 := by decide

/-- No two octets name one opcode (spec/30_encoding.md R104). -/
theorem opcodeByte_of_opcodeOf {b : Byte} {o : Opcode} (h : opcodeOf b = some o) : opcodeByte o = b := by
  obtain ⟨r, hr, rfl⟩ := Option.map_eq_some_iff.mp h
  rw [opcodeTable_row r (List.mem_of_find?_eq_some hr)]
  simpa using List.find?_some hr

end Sys2Proof
end

