-- ==== Sys2Proof/Laws/Checksum.lean ====
section
/-! SUPPORT. The fold loop's equation and end (spec/41_checksum.md R162), and the checksum word. -/

namespace Sys2Proof.Machine

/-- Passes beyond those needed change nothing. -/
theorem foldPasses_enough : ∀ {k k' acc : Nat}, acc ≤ k → acc ≤ k' → foldPasses k acc = foldPasses k' acc
  | 0, 0, _, _, _ => rfl
  | 0, k' + 1, acc, h, _ => by
    obtain rfl : acc = 0 := by omega
    simp [foldPasses]
  | k + 1, 0, acc, _, h => by
    obtain rfl : acc = 0 := by omega
    simp [foldPasses]
  | k + 1, k' + 1, acc, h, h' => by
    simp only [foldPasses]
    split
    · rfl
    · next hne =>
      have hs : acc >>> 16 = acc / 65536 := Nat.shiftRight_eq_div_pow acc 16
      exact foldPasses_enough (by omega) (by omega)

/-- The loop of R162. -/
theorem onesFold_eq (acc : Nat) :
    onesFold acc = if acc >>> 16 = 0 then acc else onesFold (acc % 65536 + (acc >>> 16)) := by
  have hs : acc >>> 16 = acc / 65536 := Nat.shiftRight_eq_div_pow acc 16
  by_cases h : acc >>> 16 = 0
  · cases acc with
    | zero => rfl
    | succ n => simp only [onesFold, foldPasses, h, if_true]
  · obtain ⟨k, rfl⟩ : ∃ k, acc = k + 1 := ⟨acc - 1, by omega⟩
    rw [if_neg h, onesFold, foldPasses, if_neg h, onesFold]
    exact foldPasses_enough (by omega) (Nat.le_refl _)

theorem onesFold_small {acc : Nat} (h : acc < 65536) : onesFold acc = acc := by
  rw [onesFold_eq, if_pos (by rw [Nat.shiftRight_eq_div_pow]; omega)]

theorem onesFold_pass {acc : Nat} (h : 65536 ≤ acc) :
    onesFold acc = onesFold (acc % 65536 + acc / 65536) := by
  have hs : acc >>> 16 = acc / 65536 := Nat.shiftRight_eq_div_pow acc 16
  conv_lhs => rw [onesFold_eq, if_neg (by omega), hs]

/-- The loop has ended: no carry is left (R162). -/
theorem onesFold_lt (acc : Nat) : onesFold acc < 65536 := by
  induction acc using Nat.strong_induction_on with
  | _ acc ih =>
    by_cases h : acc < 65536
    · rw [onesFold_small h]; exact h
    · rw [onesFold_pass (by omega)]
      exact ih _ (by omega)

/-- The accumulator holds the sum where the sum fits its width (R163, R167). -/
theorem accumulate_toNat {ws : List Nat} (h : ws.sum < 2 ^ accBits) : (accumulate ws).toNat = ws.sum := by
  have key : ∀ (ws : List Nat) (acc : BitVec accBits), acc.toNat + ws.sum < 2 ^ accBits →
      (ws.foldl (fun acc w => acc + BitVec.ofNat accBits w) acc).toNat = acc.toNat + ws.sum := by
    intro ws
    induction ws with
    | nil => intro acc _; rfl
    | cons w ws ih =>
      intro acc hs
      rw [List.sum_cons] at hs
      have hw : (acc + BitVec.ofNat accBits w).toNat = acc.toNat + w := by
        rw [BitVec.toNat_add, BitVec.toNat_ofNat, Nat.add_mod_mod]
        exact Nat.mod_eq_of_lt (by omega)
      rw [List.foldl_cons, ih _ (by omega), hw, List.sum_cons, Nat.add_assoc]
  simpa [accumulate] using key ws 0 (by simpa using h)

/-- ones_sum as the fold of the plain sum, where the accumulator holds it (R163). -/
theorem onesSum_eq {h : Octets 20} (hs : (ipWords h).sum < 2 ^ accBits) :
    onesSum h = onesFold (ipWords h).sum := by
  rw [onesSum, accumulate_toNat hs]

theorem withChecksumWord_val (w : Octets 2) (h : Octets 20) :
    (withChecksumWord w h).val = h.val.take 10 ++ w.val ++ h.val.drop 12 := rfl

end Sys2Proof.Machine
end

