-- ==== Sys2Proof/Laws/Exec.lean ====
section
/-! SUPPORT. What each command's meaning can do, said once: the inversion lemmas of `exec`. -/

namespace Sys2Proof.Machine

/-- Every meaning is refused while PENDING = 1. -/
theorem exec_pending {i : Instr} {s : State} (h : s.pending = true) :
    exec i s = .refused .commandWhilePending := by
  cases i <;> exact whenTaken_pending h _

/-- INIT: one of its three answers. -/
theorem execInit_cases {c : BitVec 32} {s t : State} (h : execInit c s = .next t) :
    s.pending = false ∧
    ((s.phase ≠ .uninit ∧ t = respond .sequenceError [] s) ∨
     (s.phase = .uninit ∧ capacityLegal c.toNat = false ∧ t = respond .paramError [] s) ∨
     (s.phase = .uninit ∧ capacityLegal c.toNat = true ∧
       t = respond .ok [] { s with cap := some c.toNat, fb := [], phase := .ready })) := by
  obtain ⟨hp, h⟩ := whenTaken_next h
  refine ⟨hp, ?_⟩
  split at h
  · next h1 => exact .inl ⟨h1, (Host.Outcome.next.inj h).symm⟩
  · next h1 =>
    rw [Decidable.not_not] at h1
    split at h
    · next h2 => exact .inr (.inr ⟨h1, h2, (Host.Outcome.next.inj h).symm⟩)
    · next h2 => exact .inr (.inl ⟨h1, by simpa using h2, (Host.Outcome.next.inj h).symm⟩)

/-- BUILD_HEADER: one of its three answers. -/
theorem execBuildHeader_cases {sm dm si di : List Byte} {sp dp : BitVec 16} {s t : State}
    (h : execBuildHeader sm dm si di sp dp s = .next t) :
    s.pending = false ∧
    ((s.phase = .uninit ∧ t = respond .sequenceError [] s) ∨
     (s.phase ≠ .uninit ∧ addressLengthsLegal sm dm si di = false ∧
       t = respond .invalidAddressLength [] s) ∨
     (∃ c u, s.phase ≠ .uninit ∧ addressLengthsLegal sm dm si di = true ∧ s.cap = some c ∧
       writeHeaders sm dm si di sp dp c s = .ok u ∧
       t = respond .ok [] { u with phase := .headerBuilt })) := by
  obtain ⟨hp, h⟩ := whenTaken_next h
  refine ⟨hp, ?_⟩
  split at h
  · next h1 => exact .inl ⟨h1, (Host.Outcome.next.inj h).symm⟩
  · next h1 =>
    split at h
    · next h2 =>
      split at h
      · cases h
      · next c hc =>
        obtain ⟨u, hu, h⟩ := afterAccess_next h
        exact .inr (.inr ⟨c, u, h1, h2, hc, hu, (Host.Outcome.next.inj h).symm⟩)
    · next h2 => exact .inr (.inl ⟨h1, by simpa using h2, (Host.Outcome.next.inj h).symm⟩)

/-- SEND phase A: one of its three answers. -/
theorem execSend_cases {payload : List Byte} {s t : State} (h : execSend payload s = .next t) :
    s.pending = false ∧
    ((headerExists s.phase = false ∧ t = respond .sequenceError [] s) ∨
     (∃ c, headerExists s.phase = true ∧ s.cap = some c ∧ c < 42 + payload.length ∧
       t = respond .capacityError [] s) ∨
     (∃ c u, headerExists s.phase = true ∧ s.cap = some c ∧ 42 + payload.length ≤ c ∧
       finalizeFrame payload s = .ok u ∧ handOff payload u = .ok t)) := by
  obtain ⟨hp, h⟩ := whenTaken_next h
  refine ⟨hp, ?_⟩
  split at h
  · next h1 =>
    split at h
    · cases h
    · next c hc =>
      have h42 : hdrTotal = 42 := rfl
      split at h
      · next h2 => exact .inr (.inl ⟨c, h1, hc, by omega, (Host.Outcome.next.inj h).symm⟩)
      · next h2 =>
        obtain ⟨u, hu, h⟩ := afterAccess_next h
        obtain ⟨v, hv, h⟩ := afterAccess_next h
        cases h
        exact .inr (.inr ⟨c, u, h1, hc, by omega, hu, hv⟩)
  · next h1 => exact .inl ⟨by simpa using h1, (Host.Outcome.next.inj h).symm⟩

/-- A command of the codec or of the checksum calculator. -/
def pureCommand : Instr → Bool
  | .encBe16 _ | .encBe32 _ | .encBe64 _ | .encLe16 _ | .encLe32 _ | .encLe64 _ => true
  | .decBe16 _ | .decBe32 _ | .decBe64 _ | .decLe16 _ | .decLe32 _ | .decLe64 _ => true
  | .ipcsum _ => true
  | .init _ | .buildHeader _ _ _ _ _ _ | .send _ => false

/-- Such a command answers OK with a result that depends on its operand alone, and changes nothing
else (spec/40_codec.md R150; spec/41_checksum.md R166). -/
theorem exec_pure {i : Instr} (hi : pureCommand i = true) :
    ∃ result, ∀ s : State, s.pending = false → exec i s = .next (respond .ok result s) := by
  cases i <;> first
    | (exact ⟨_, fun s hs => whenTaken_idle hs _⟩)
    | (simp [pureCommand] at hi)

end Sys2Proof.Machine
end

