-- ==== Sys2Proof/Laws/PerInstr.lean ====
section
/-! SUPPORT. Statements for all commands, one lemma per constructor. -/

namespace Sys2Proof.Laws.PacketShape

open Sys2Proof.Machine

/-- The encoder's packet opens with the command's opcode octet, which names its opcode, and its length
is the one its format calls for (spec/30_encoding.md R102, R104). -/
def Statement (i : Instr) : Prop :=
  (encode i).head? = some (opcodeByte i.opcode) ∧ opcodeOf (opcodeByte i.opcode) = some i.opcode ∧
  (encode i).length =
    match i with
    | .encBe16 _ | .encLe16 _ | .decBe16 _ | .decLe16 _ => 3
    | .encBe32 _ | .encLe32 _ | .decBe32 _ | .decLe32 _ => 5
    | .encBe64 _ | .encLe64 _ | .decBe64 _ | .decLe64 _ => 9
    | .ipcsum _ => 21
    | .init _ => 5
    | .buildHeader sm dm si di _ _ => 9 + sm.length + dm.length + si.length + di.length
    | .send payload => 5 + payload.length

theorem encBe16 (v : BitVec 16) : Statement (.encBe16 v) := ⟨rfl, opcodeOf_opcodeByte _, rfl⟩
theorem encBe32 (v : BitVec 32) : Statement (.encBe32 v) := ⟨rfl, opcodeOf_opcodeByte _, rfl⟩
theorem encBe64 (v : BitVec 64) : Statement (.encBe64 v) := ⟨rfl, opcodeOf_opcodeByte _, rfl⟩
theorem encLe16 (v : BitVec 16) : Statement (.encLe16 v) := ⟨rfl, opcodeOf_opcodeByte _, rfl⟩
theorem encLe32 (v : BitVec 32) : Statement (.encLe32 v) := ⟨rfl, opcodeOf_opcodeByte _, rfl⟩
theorem encLe64 (v : BitVec 64) : Statement (.encLe64 v) := ⟨rfl, opcodeOf_opcodeByte _, rfl⟩
theorem decBe16 (b : Octets 2) : Statement (.decBe16 b) :=
  ⟨rfl, opcodeOf_opcodeByte _, by simp [encode, encodeOperands, b.property]⟩
theorem decBe32 (b : Octets 4) : Statement (.decBe32 b) :=
  ⟨rfl, opcodeOf_opcodeByte _, by simp [encode, encodeOperands, b.property]⟩
theorem decBe64 (b : Octets 8) : Statement (.decBe64 b) :=
  ⟨rfl, opcodeOf_opcodeByte _, by simp [encode, encodeOperands, b.property]⟩
theorem decLe16 (b : Octets 2) : Statement (.decLe16 b) :=
  ⟨rfl, opcodeOf_opcodeByte _, by simp [encode, encodeOperands, b.property]⟩
theorem decLe32 (b : Octets 4) : Statement (.decLe32 b) :=
  ⟨rfl, opcodeOf_opcodeByte _, by simp [encode, encodeOperands, b.property]⟩
theorem decLe64 (b : Octets 8) : Statement (.decLe64 b) :=
  ⟨rfl, opcodeOf_opcodeByte _, by simp [encode, encodeOperands, b.property]⟩
theorem ipcsum (hdr : Octets 20) : Statement (.ipcsum hdr) :=
  ⟨rfl, opcodeOf_opcodeByte _, by simp [encode, encodeOperands, hdr.property]⟩
theorem init (capacity : BitVec 32) : Statement (.init capacity) := ⟨rfl, opcodeOf_opcodeByte _, rfl⟩
theorem buildHeader (srcMac dstMac srcIp dstIp : List Byte) (srcPort dstPort : BitVec 16) :
    Statement (.buildHeader srcMac dstMac srcIp dstIp srcPort dstPort) :=
  ⟨rfl, opcodeOf_opcodeByte _, by simp [encode, encodeOperands, encodePrefixed]; omega⟩
theorem send (payload : List Byte) : Statement (.send payload) :=
  ⟨rfl, opcodeOf_opcodeByte _, by simp [encode, encodeOperands]; omega⟩

end Sys2Proof.Laws.PacketShape
end

