-- ==== Sys2Proof/Laws/Safety.lean ====
section
/-! SUPPORT. Small laws of the invariant: what it says of FB as one list of octets. -/

namespace Sys2Proof.Safety

open Sys2Proof.Machine

theorem headerExists_iff {p : BuilderState} :
    headerExists p = true ↔ p = .headerBuilt ∨ p = .sent := by
  simp [headerExists]

/-- In HEADER_BUILT and SENT, FB is one list of CAP octets (spec/10_state.md R36 (a)). -/
theorem Inv.octets {s : State} (h : Inv s) (hp : headerExists s.phase = true) :
    ∃ bytes : List Byte, s.cap = some bytes.length ∧ s.fb = cellsAt 0 bytes ∧
      42 ≤ bytes.length ∧ bytes.length ≤ 65549 := by
  cases hc : s.cap with
  | none =>
    rw [h.capacity.mpr hc] at hp
    simp [headerExists] at hp
  | some c =>
    obtain ⟨bytes, hl, hfb⟩ := memory_eq_cellsAt h.memory (n := c) (h.written hp c hc) (by
      intro x b hx
      obtain ⟨c', hc', hlt⟩ := h.extent x b hx
      rw [hc, Option.some.injEq] at hc'
      omega)
    have := h.legal c hc
    exact ⟨bytes, by rw [hl], hfb, by omega, by omega⟩

/-- A state whose FB is one list of octets with the header constants satisfies the invariant. -/
theorem Inv.of_octets {s : State} {bytes : List Byte} (hp : headerExists s.phase = true)
    (hc : s.cap = some bytes.length) (hfb : s.fb = cellsAt 0 bytes) (h42 : 42 ≤ bytes.length)
    (hmax : bytes.length ≤ 65549)
    (h1 : (bytes.drop 12).take 4 = [0x08, 0x00, 0x45, 0x00])
    (h2 : (bytes.drop 18).take 6 = encodeBe 2 s.ipId ++ [0x40, 0x00, 0x40, 0x11]) : Inv s where
  memory := by rw [hfb]; exact cellsAt_wf 0 bytes
  extent := by
    intro a b hab
    rw [hfb, readOctet_cellsAt, if_pos (Nat.zero_le a), Nat.sub_zero] at hab
    exact ⟨_, hc, (List.getElem?_eq_some_iff.mp hab).1⟩
  capacity := by
    rw [hc]
    rcases headerExists_iff.mp hp with h | h <;> simp [h]
  legal := by
    intro c hc'
    rw [hc, Option.some.injEq] at hc'
    omega
  written := by
    intro _ c hc' a ha
    rw [hc, Option.some.injEq] at hc'
    rw [hfb, readOctet_cellsAt, if_pos (Nat.zero_le a), Nat.sub_zero]
    exact ⟨bytes[a], List.getElem?_eq_getElem (by omega)⟩
  unwritten := by simp [hp]
  constants := by
    intro _
    refine ⟨?_, ?_⟩
    · rw [hfb, readOctets_cellsAt (by omega), h1]
    · rw [hfb, readOctets_cellsAt (by omega), h2]
  pendingPhase := fun _ => hp

end Sys2Proof.Safety
end

