-- ==== Sys2Proof/Machine/SourceForms.lean ====
section
/-! DEFINITION. The written forms of a command: the source's function names as pseudo-instructions
(spec/30_encoding.md R116) and the assembler syntax (R115; log entry 19). No step uses them. -/

namespace Sys2Proof.Machine

/-- `encode_be(value, width)`, width in bits; other widths and values outside the width have no
command (R116). -/
def encodeBeForm (value width : Nat) : Option Instr :=
  if value < 2 ^ width then
    match width with
    | 16 => some (.encBe16 (BitVec.ofNat 16 value))
    | 32 => some (.encBe32 (BitVec.ofNat 32 value))
    | 64 => some (.encBe64 (BitVec.ofNat 64 value))
    | _ => none
  else none

/-- `encode_le(value, width)` (R116). -/
def encodeLeForm (value width : Nat) : Option Instr :=
  if value < 2 ^ width then
    match width with
    | 16 => some (.encLe16 (BitVec.ofNat 16 value))
    | 32 => some (.encLe32 (BitVec.ofNat 32 value))
    | 64 => some (.encLe64 (BitVec.ofNat 64 value))
    | _ => none
  else none

/-- `decode_be(octets)`: the width is the number of octets, 2, 4 or 8 (R116; spec/90_conflicts.md
C9). -/
def decodeBeForm (b : List Byte) : Option Instr :=
  match exactly 2 b, exactly 4 b, exactly 8 b with
  | some d, _, _ => some (.decBe16 d)
  | _, some d, _ => some (.decBe32 d)
  | _, _, some d => some (.decBe64 d)
  | _, _, _ => none

/-- `decode_le(octets)` (R116). -/
def decodeLeForm (b : List Byte) : Option Instr :=
  match exactly 2 b, exactly 4 b, exactly 8 b with
  | some d, _, _ => some (.decLe16 d)
  | _, some d, _ => some (.decLe32 d)
  | _, _, some d => some (.decLe64 d)
  | _, _, _ => none

/-- `initialize(buffer_capacity)` (R116); a capacity is below `2^32` (spec/42_builder.md R181). -/
def initializeForm (capacity : Nat) : Option Instr :=
  if capacity < 2 ^ 32 then some (.init (BitVec.ofNat 32 capacity)) else none

/-- `build_header(src_mac, dst_mac, src_ip, dst_ip, src_port, dst_port)` (R116). -/
def buildHeaderForm (srcMac dstMac srcIp dstIp : List Byte) (srcPort dstPort : BitVec 16) : Instr :=
  .buildHeader srcMac dstMac srcIp dstIp srcPort dstPort

/-- `send(payload)` (R116). -/
def sendForm (payload : List Byte) : Instr := .send payload

/-- The IPv4 checksum algorithm applied to a 20-octet header (R116). -/
def checksumForm (hdr : Octets 20) : Instr := .ipcsum hdr

/-- The mnemonic of a command (R104). -/
def mnemonic : Opcode → String
  | .encBe16 => "ENC_BE16"
  | .encBe32 => "ENC_BE32"
  | .encBe64 => "ENC_BE64"
  | .encLe16 => "ENC_LE16"
  | .encLe32 => "ENC_LE32"
  | .encLe64 => "ENC_LE64"
  | .decBe16 => "DEC_BE16"
  | .decBe32 => "DEC_BE32"
  | .decBe64 => "DEC_BE64"
  | .decLe16 => "DEC_LE16"
  | .decLe32 => "DEC_LE32"
  | .decLe64 => "DEC_LE64"
  | .ipcsum => "IPCSUM"
  | .init => "INIT"
  | .buildHeader => "BUILD_HEADER"
  | .send => "SEND"

/-- An octet as two hexadecimal digits (R115). -/
def hexOctet (b : Byte) : String :=
  String.ofList [Nat.digitChar (b.toNat / 16), Nat.digitChar (b.toNat % 16)] |>.toUpper

/-- Octets in memory order, two-digit hexadecimal, with a separator (R115). -/
def hexOctets (sep : String) (bs : List Byte) : String := sep.intercalate (bs.map hexOctet)

/-- An IPv4 address in dotted decimal, octet 0 leftmost (R115; spec/92_eei_decisions.md D32). -/
def dotted (bs : List Byte) : String := ".".intercalate (bs.map fun b => toString b.toNat)

/-- The operands of a command as R115 writes them. -/
def operandText : Instr → String
  | .encBe16 v => "0x" ++ hexOctets "" (encodeBe 2 v)
  | .encBe32 v => "0x" ++ hexOctets "" (encodeBe 4 v)
  | .encBe64 v => "0x" ++ hexOctets "" (encodeBe 8 v)
  | .encLe16 v => "0x" ++ hexOctets "" (encodeBe 2 v)
  | .encLe32 v => "0x" ++ hexOctets "" (encodeBe 4 v)
  | .encLe64 v => "0x" ++ hexOctets "" (encodeBe 8 v)
  | .decBe16 b => hexOctets " " b.val
  | .decBe32 b => hexOctets " " b.val
  | .decBe64 b => hexOctets " " b.val
  | .decLe16 b => hexOctets " " b.val
  | .decLe32 b => hexOctets " " b.val
  | .decLe64 b => hexOctets " " b.val
  | .ipcsum hdr => hexOctets " " hdr.val
  | .init capacity => toString capacity.toNat
  | .buildHeader srcMac dstMac srcIp dstIp srcPort dstPort =>
      "smac=" ++ hexOctets ":" srcMac ++ " dmac=" ++ hexOctets ":" dstMac
        ++ " sip=" ++ dotted srcIp ++ " dip=" ++ dotted dstIp
        ++ " sport=" ++ toString srcPort.toNat ++ " dport=" ++ toString dstPort.toNat
  | .send payload => hexOctets " " payload

/-- A command in the assembler syntax: its mnemonic followed by its operands (R115). -/
def asmText (i : Instr) : String := mnemonic i.opcode ++ " " ++ operandText i

end Sys2Proof.Machine
end

