-- ==== Sys2Proof/Tests/Slice0.lean ====
section
/-! SUPPORT. The model's own tests. Expected values come from spec/95_test_vectors.md (V, K, B, E, P)
and from the encodings of spec/30_encoding.md written out by hand. -/

namespace Sys2Proof.Tests

open Sys2Proof.Machine

/-! ### Ill-formed terms (spec/30_encoding.md R101, R102) -/

/-- A term with a given payload length is decided without writing the payload out. -/
theorem test_send_wellFormed_iff (p : List Byte) :
    Instr.WellFormed (.send p) = decide (p.length < 2 ^ 32) := rfl

theorem test_illFormed_payload_too_long :
    Instr.WellFormed (.send (List.replicate (2 ^ 32) 0)) = false := by
  rw [test_send_wellFormed_iff, List.length_replicate]
  exact decide_eq_false (Nat.lt_irrefl _)

theorem test_illFormed_srcMac :
    Instr.WellFormed (.buildHeader (List.replicate 256 0) [] [] [] 0 0) = false := by decide +kernel

theorem test_illFormed_dstMac :
    Instr.WellFormed (.buildHeader [] (List.replicate 256 0) [] [] 0 0) = false := by decide +kernel

theorem test_illFormed_srcIp :
    Instr.WellFormed (.buildHeader [] [] (List.replicate 256 0) [] 0 0) = false := by decide +kernel

theorem test_illFormed_dstIp :
    Instr.WellFormed (.buildHeader [] [] [] (List.replicate 256 0) 0 0) = false := by decide +kernel

theorem test_wellFormed_longest_address :
    Instr.WellFormed (.buildHeader (List.replicate 255 0) [] [] [] 0 0) = true := by decide +kernel

/-! ### Decoding: one packet per constructor, written out from R102 and R104 -/

theorem test_decode_encBe16 : decode [0b00010001, 0x08, 0x00] = .ok (.encBe16 0x0800) := by decide
theorem test_decode_encBe32 :
    decode [0b00010010, 0x0A, 0x0B, 0x0C, 0x01] = .ok (.encBe32 0x0A0B0C01) := by decide
theorem test_decode_encBe64 :
    decode [0b00010011, 1, 2, 3, 4, 5, 6, 7, 8] = .ok (.encBe64 0x0102030405060708) := by decide
theorem test_decode_encLe16 : decode [0b00010101, 0xAB, 0xCD] = .ok (.encLe16 0xABCD) := by decide
theorem test_decode_encLe32 :
    decode [0b00010110, 0x80, 0, 0, 0] = .ok (.encLe32 0x80000000) := by decide
theorem test_decode_encLe64 :
    decode [0b00010111, 1, 2, 3, 4, 5, 6, 7, 8] = .ok (.encLe64 0x0102030405060708) := by decide
theorem test_decode_decBe16 :
    decode [0b00011001, 0x00, 0x01] = .ok (.decBe16 ⟨[0x00, 0x01], rfl⟩) := by decide
theorem test_decode_decBe32 :
    decode [0b00011010, 0xDE, 0xAD, 0xBE, 0xEF]
      = .ok (.decBe32 ⟨[0xDE, 0xAD, 0xBE, 0xEF], rfl⟩) := by decide
theorem test_decode_decBe64 :
    decode [0b00011011, 0x00, 0x11, 0x22, 0x33, 0x44, 0x55, 0x66, 0x77]
      = .ok (.decBe64 ⟨[0x00, 0x11, 0x22, 0x33, 0x44, 0x55, 0x66, 0x77], rfl⟩) := by decide
theorem test_decode_decLe16 :
    decode [0b00011101, 0x00, 0x01] = .ok (.decLe16 ⟨[0x00, 0x01], rfl⟩) := by decide
theorem test_decode_decLe32 :
    decode [0b00011110, 0x01, 0x0C, 0x0B, 0x0A]
      = .ok (.decLe32 ⟨[0x01, 0x0C, 0x0B, 0x0A], rfl⟩) := by decide
theorem test_decode_decLe64 :
    decode [0b00011111, 0x00, 0x11, 0x22, 0x33, 0x44, 0x55, 0x66, 0x77]
      = .ok (.decLe64 ⟨[0x00, 0x11, 0x22, 0x33, 0x44, 0x55, 0x66, 0x77], rfl⟩) := by decide

/-- K1, the known vector of the source (spec/95_test_vectors.md S4). -/
def knownVector : Octets 20 :=
  ⟨[0x45, 0x00, 0x00, 0x30, 0xAB, 0xCD, 0x40, 0x00, 0x40, 0x11, 0x00, 0x00,
    0x0A, 0x0B, 0x0C, 0x01, 0x0A, 0x0B, 0x0C, 0xFF], rfl⟩

theorem test_decode_ipcsum : decode (0b00100000 :: knownVector.val) = .ok (.ipcsum knownVector) := by
  decide

theorem test_decode_init : decode [0b00110000, 0x00, 0x00, 0x1F, 0x6A] = .ok (.init 8042) := by decide

def srcMac : List Byte := [0x02, 0x11, 0x22, 0x33, 0x44, 0x55]
def dstMac : List Byte := [0xFF, 0xFF, 0xFF, 0xFF, 0xFF, 0xFF]
def srcIp : List Byte := [0x0A, 0x0B, 0x0C, 0x01]
def dstIp : List Byte := [0x0A, 0x0B, 0x0C, 0xFF]

/-- The common BUILD_HEADER command of spec/95_test_vectors.md 2.3. -/
def commonBuild : Instr := .buildHeader srcMac dstMac srcIp dstIp 12345 32002

/-- Its packet, as spec/95_test_vectors.md 2.3 writes it. -/
def commonPacket : List Byte :=
  [0x31, 0x06, 0x02, 0x11, 0x22, 0x33, 0x44, 0x55, 0x06, 0xFF, 0xFF, 0xFF, 0xFF, 0xFF, 0xFF,
   0x04, 0x0A, 0x0B, 0x0C, 0x01, 0x04, 0x0A, 0x0B, 0x0C, 0xFF, 0x30, 0x39, 0x7D, 0x02]

theorem test_decode_buildHeader : decode commonPacket = .ok commonBuild := by decide
theorem test_encode_buildHeader : encode commonBuild = commonPacket := by decide

theorem test_decode_send :
    decode [0b00110010, 0, 0, 0, 5, 0x68, 0x65, 0x6C, 0x6C, 0x6F]
      = .ok (.send [0x68, 0x65, 0x6C, 0x6C, 0x6F]) := by decide

/-- E21: all four addresses empty is a well-formed packet. -/
theorem test_decode_empty_addresses :
    decode [0x31, 0, 0, 0, 0, 0x30, 0x39, 0x7D, 0x02] = .ok (.buildHeader [] [] [] [] 12345 32002) := by
  decide

/-- E1, E6 to E12: malformed packets. -/
theorem test_decode_malformed :
    [[], [0x11, 0x08], [0x11, 0x08, 0, 0], [0x30, 0, 0, 0x40], [0x32, 0, 0, 0, 3, 0xAA, 0xBB],
     [0x32, 0, 0], [0x31, 0x06, 0x02, 0x11, 0x22], commonPacket ++ [0]].all
      (fun p => decide (decode p = .error .formatError)) = true := by decide

/-- E2 to E5, E14: reserved opcodes, whatever follows. -/
theorem test_decode_reserved :
    [[0xFF], [0x00], [0x14, 0, 0], [0x10], [0x18], [0x1C], [0x21], [0x2F], [0x33], [0xFF, 1, 2]].all
      (fun p => decide (decode p = .error .opcodeError)) = true := by decide

/-- The opcode table's rows, operand octets zero. -/
theorem test_decodeTableWord_build :
    decodeTableWord 8 0x31 = some (.buildHeader [] [] [] [] 0 0) := by decide
theorem test_decodeTableWord_ipcsum :
    decodeTableWord 8 0x20 = some (.ipcsum ⟨List.replicate 20 0, rfl⟩) := by decide
theorem test_decodeTableWord_operands : decodeTableWord 24 0xCDAB11 = some (.encBe16 0xABCD) := by decide
theorem test_decodeTableWord_reserved : decodeTableWord 8 0x14 = none := by decide

/-! ### States -/

/-- A state whose FB holds the given octets from address 0, CAP being their number. -/
def withBuffer (phase : BuilderState) (bytes : List Byte) : State :=
  { State.reset with phase := phase, cap := some bytes.length, fb := cellsAt 0 bytes }

def readyState (cap : Nat) : State := { State.reset with phase := .ready, cap := some cap }

/-- FB after the common BUILD_HEADER with CAP = 64 (spec/42_builder.md R184). -/
def builtOctets : List Byte :=
  [0xFF, 0xFF, 0xFF, 0xFF, 0xFF, 0xFF, 0x02, 0x11, 0x22, 0x33, 0x44, 0x55, 0x08, 0x00,
   0x45, 0x00, 0xDD, 0xDD, 0xAB, 0xCD, 0x40, 0x00, 0x40, 0x11, 0xDD, 0xDD, 0x0A, 0x0B,
   0x0C, 0x01, 0x0A, 0x0B, 0x0C, 0xFF, 0x30, 0x39, 0x7D, 0x02, 0xDD, 0xDD, 0xDD, 0xDD]
    ++ List.replicate 22 0xDD

/-- The TX data of `SEND 68 65 6C 6C 6F` (spec/95_test_vectors.md P3 step 4). -/
def helloFrame : List Byte :=
  [0xFF, 0xFF, 0xFF, 0xFF, 0xFF, 0xFF, 0x02, 0x11, 0x22, 0x33, 0x44, 0x55, 0x08, 0x00,
   0x45, 0x00, 0x00, 0x21, 0xAB, 0xCD, 0x40, 0x00, 0x40, 0x11, 0x61, 0xE9, 0x0A, 0x0B,
   0x0C, 0x01, 0x0A, 0x0B, 0x0C, 0xFF, 0x30, 0x39, 0x7D, 0x02, 0x00, 0x0D, 0x00, 0x00,
   0x68, 0x65, 0x6C, 0x6C, 0x6F]

/-- The TX data of `SEND 68 69` after it (spec/95_test_vectors.md P3 step 5). -/
def hiFrame : List Byte :=
  [0xFF, 0xFF, 0xFF, 0xFF, 0xFF, 0xFF, 0x02, 0x11, 0x22, 0x33, 0x44, 0x55, 0x08, 0x00,
   0x45, 0x00, 0x00, 0x1E, 0xAB, 0xCD, 0x40, 0x00, 0x40, 0x11, 0x61, 0xEC, 0x0A, 0x0B,
   0x0C, 0x01, 0x0A, 0x0B, 0x0C, 0xFF, 0x30, 0x39, 0x7D, 0x02, 0x00, 0x0A, 0x00, 0x00,
   0x68, 0x69]

def builtState : State := withBuffer .headerBuilt builtOctets

/-- SENT after the hello frame, its TX request answered. -/
def sentState : State :=
  { withBuffer .sent (helloFrame ++ List.replicate 17 0xDD) with
    txRequests := [⟨⟨0⟩, dstMac, helloFrame, 47⟩] }

/-- The hello SEND waiting for its answer. -/
def waitingState : State :=
  { withBuffer .headerBuilt (helloFrame ++ List.replicate 17 0xDD) with
    pending := true, txRequests := [⟨⟨0⟩, dstMac, helloFrame, 47⟩] }

/-- The next state of a step, or the state itself where it stops: for reading off fields. -/
def nextOf (s : State) : Result → State
  | .next t => t
  | .fault _ => s
  | .refused _ => s

/-- A result is the next state `t`. -/
def endsIn (r : Result) (t : State) : Bool :=
  match r with
  | .next u => decide (u = t)
  | .fault _ => false
  | .refused _ => false

/-- The last response after a result. -/
def lastResponse (s : State) (r : Result) : Option (List Byte) := (nextOf s r).responses.getLast?

/-! ### Codec and checksum commands (V, K, E24, E25) -/

theorem test_encBe16 : lastResponse .reset (exec (.encBe16 0x0800) .reset) = some [0, 0x08, 0x00] := by
  decide
theorem test_encBe32 :
    lastResponse .reset (exec (.encBe32 0x80000000) .reset) = some [0, 0x80, 0, 0, 0] := by decide
theorem test_encBe64 :
    lastResponse .reset (exec (.encBe64 0x0102030405060708) .reset)
      = some [0, 1, 2, 3, 4, 5, 6, 7, 8] := by decide
theorem test_encLe16 : lastResponse .reset (exec (.encLe16 0xABCD) .reset) = some [0, 0xCD, 0xAB] := by
  decide
theorem test_encLe32 :
    lastResponse .reset (exec (.encLe32 0x0A0B0C01) .reset) = some [0, 0x01, 0x0C, 0x0B, 0x0A] := by
  decide
theorem test_encLe64 :
    lastResponse .reset (exec (.encLe64 0x8000000000000001) .reset)
      = some [0, 1, 0, 0, 0, 0, 0, 0, 0x80] := by decide
theorem test_decBe16 :
    lastResponse .reset (exec (.decBe16 ⟨[0x00, 0x01], rfl⟩) .reset) = some [0, 0x00, 0x01] := by decide
theorem test_decBe32 :
    lastResponse .reset (exec (.decBe32 ⟨[0xDE, 0xAD, 0xBE, 0xEF], rfl⟩) .reset)
      = some [0, 0xDE, 0xAD, 0xBE, 0xEF] := by decide
theorem test_decBe64 :
    lastResponse .reset (exec (.decBe64 ⟨[0x00, 0x11, 0x22, 0x33, 0x44, 0x55, 0x66, 0x77], rfl⟩) .reset)
      = some [0, 0x00, 0x11, 0x22, 0x33, 0x44, 0x55, 0x66, 0x77] := by decide
theorem test_decLe16 :
    lastResponse .reset (exec (.decLe16 ⟨[0x00, 0x01], rfl⟩) .reset) = some [0, 0x01, 0x00] := by decide
theorem test_decLe32 :
    lastResponse .reset (exec (.decLe32 ⟨[0xDE, 0xAD, 0xBE, 0xEF], rfl⟩) .reset)
      = some [0, 0xEF, 0xBE, 0xAD, 0xDE] := by decide
theorem test_decLe64 :
    lastResponse .reset (exec (.decLe64 ⟨[0x00, 0x11, 0x22, 0x33, 0x44, 0x55, 0x66, 0x77], rfl⟩) .reset)
      = some [0, 0x77, 0x66, 0x55, 0x44, 0x33, 0x22, 0x11, 0x00] := by decide

/-- The value of a decode, as a number: V16 and V17. -/
theorem test_decode_values :
    decodeBe [0xDE, 0xAD, 0xBE, 0xEF] = 0xDEADBEEF ∧ decodeLe [0xDE, 0xAD, 0xBE, 0xEF] = 0xEFBEADDE := by
  decide

theorem test_ipcsum_known_vector :
    lastResponse .reset (exec (.ipcsum knownVector) .reset) = some [0, 0x61, 0xDA] := by decide

/-- K6: a sum that needs two folds, with a stale checksum word. -/
theorem test_ipcsum_two_folds :
    ipChecksum ⟨List.replicate 10 0xFF ++ [0x12, 0x34] ++ List.replicate 6 0xFF ++ [0x00, 0x07], rfl⟩
      = 0xFFF8 := by decide

/-- K4 and K5. -/
theorem test_ipcsum_extremes :
    ipChecksum ⟨List.replicate 20 0, rfl⟩ = 0xFFFF ∧ ipChecksum ⟨List.replicate 20 0xFF, rfl⟩ = 0 := by
  decide

/-- K2 and K7: verification of a good and of a corrupted header. -/
theorem test_ipVerify :
    ipVerify (withChecksumWord ⟨[0x61, 0xDA], rfl⟩ knownVector) = 0 ∧
    ipVerify ⟨[0x45, 0x00, 0x00, 0x30, 0xAB, 0xCD, 0x40, 0x00, 0x41, 0x11, 0x61, 0xDA,
      0x0A, 0x0B, 0x0C, 0x01, 0x0A, 0x0B, 0x0C, 0xFF], rfl⟩ = 0xFEFF := by decide

/-! ### Builder commands (B, E, P) -/

theorem test_init_least :
    endsIn (exec (.init 42) .reset)
      { State.reset with phase := .ready, cap := some 42, responses := [[0x00]] } := by decide

/-- B16, B17, E18. -/
theorem test_init_errors :
    lastResponse .reset (exec (.init 41) .reset) = some [0x81] ∧
    lastResponse .reset (exec (.init 65550) .reset) = some [0x81] ∧
    lastResponse (readyState 64) (exec (.init 64) (readyState 64)) = some [0x80] := by decide

theorem test_buildHeader_octets :
    endsIn (exec commonBuild (readyState 64))
      { builtState with responses := [[0x00]] } := by decide

/-- E16, E19, E22. -/
theorem test_buildHeader_errors :
    lastResponse .reset (exec commonBuild .reset) = some [0x80] ∧
    endsIn (exec (.buildHeader [0x02, 0x11, 0x22, 0x33, 0x44] dstMac srcIp dstIp 12345 32002) (readyState 64))
      { readyState 64 with responses := [[0x03]] } ∧
    lastResponse .reset
      (exec (.buildHeader [0x02] dstMac srcIp dstIp 12345 32002) .reset) = some [0x80] := by decide

/-- P3 step 4, phase A. -/
theorem test_send_hello :
    endsIn (exec (.send [0x68, 0x65, 0x6C, 0x6C, 0x6F]) builtState) waitingState := by decide

/-- P3 step 5, phase A: residue "llo" stays above the shorter frame. -/
theorem test_send_residue :
    endsIn (exec (.send [0x68, 0x69]) sentState)
      { withBuffer .sent (hiFrame ++ [0x6C, 0x6C, 0x6F] ++ List.replicate 17 0xDD) with
          pending := true
          txRequests := [⟨⟨0⟩, dstMac, helloFrame, 47⟩, ⟨⟨0⟩, dstMac, hiFrame, 44⟩] } := by
  decide

/-- E15, E17, P4 step 10. -/
theorem test_send_errors :
    lastResponse .reset (exec (.send []) .reset) = some [0x80] ∧
    lastResponse (readyState 64) (exec (.send []) (readyState 64)) = some [0x80] ∧
    endsIn (exec (.send (List.replicate 23 0xA0)) builtState)
      { builtState with responses := [[0x01]] } := by decide

/-- B13: identification 0, no payload. -/
theorem test_checksum_of_zero_id :
    ipChecksum (frameIpv4 0 ⟨⟨srcMac, rfl⟩, ⟨dstMac, rfl⟩, ⟨srcIp, rfl⟩, ⟨dstIp, rfl⟩, 12345, 32002⟩ 0 0)
      = 0x0DBC := by decide

/-- The checksum table of spec/95_test_vectors.md 2.2, `L = 8000` and `L = 65507`. -/
theorem test_checksum_of_long_payloads :
    let p : FrameParams := ⟨⟨srcMac, rfl⟩, ⟨dstMac, rfl⟩, ⟨srcIp, rfl⟩, ⟨dstIp, rfl⟩, 12345, 32002⟩
    ipChecksum (frameIpv4 0xABCD p 8000 0) = 0x42AE ∧
    ipChecksum (frameIpv4 0xABCD p 65507 0) = 0x620A := by decide

/-! ### Steps: answers, waiting, reset, packets that are no command -/

/-- Phase B, complete acceptance. -/
theorem test_step_answer :
    endsIn (step { waitingState with inputs := [.txAnswer 1 (.count 47)] }) { waitingState with
          pending := false, phase := .sent, responses := [[0x00, 0x00, 0x00, 0x00, 0x2F]] } := by
  decide

/-- B8, B12: FAIL and 0. -/
theorem test_step_transmit_error :
    endsIn (step { waitingState with inputs := [.txAnswer 1 .fail] })
      { waitingState with pending := false, responses := [[0x02]] } ∧
    endsIn (step { waitingState with inputs := [.txAnswer 1 (.count 0)] })
      { waitingState with pending := false, responses := [[0x02]] } := by decide

/-- P5: a command is held while the answer is outstanding. -/
theorem test_step_waits :
    endsIn (step { waitingState with inputs := [.command [0x11, 0x08, 0x00]] })
      { waitingState with inputs := [.command [0x11, 0x08, 0x00]] } := by decide

/-- Reset while pending; the answer that comes later is dropped (spec/70_reset_and_hazards.md R281). -/
theorem test_step_reset_pending :
    endsIn (step { waitingState with inputs := [.command [0x30, 0, 0, 0, 0x40], .reset, .txAnswer 1 .fail] })
      { State.reset with
          inputs := [.command [0x30, 0, 0, 0, 0x40], .txAnswer 1 .fail]
          txRequests := waitingState.txRequests } := by decide

theorem test_step_late_answer :
    endsIn (step { State.reset with inputs := [.txAnswer 1 (.count 5)], txRequests := waitingState.txRequests })
      { State.reset with txRequests := waitingState.txRequests } := by decide

/-- P4 steps 14 and 15. -/
theorem test_step_no_command :
    endsIn (step { sentState with inputs := [.command [0xFF]] })
      { sentState with responses := [[0x82]] } ∧
    endsIn (step { sentState with inputs := [.command [0x11, 0x08]] })
      { sentState with responses := [[0x83]] } := by decide

theorem test_withFetchWord :
    step (State.reset.withFetchWord 8 0x11) = exec (.encBe16 0) State.reset := rfl

/-! ### Written forms (spec/30_encoding.md R115, R116) -/

theorem test_encodeBeForm : encodeBeForm 0x0800 16 = some (.encBe16 0x0800) := by decide
theorem test_encodeBeForm_width : encodeBeForm 1 8 = none := by decide
theorem test_decodeLeForm : decodeLeForm [1, 2, 3] = none := by decide
theorem test_asmText_build :
    asmText commonBuild = "BUILD_HEADER smac=02:11:22:33:44:55 dmac=FF:FF:FF:FF:FF:FF sip=10.11.12.1 dip=10.11.12.255 sport=12345 dport=32002" := by
  decide +kernel

end Sys2Proof.Tests
end

