-- ==== Sys2Proof/Tests/Witness.lean ====
section
/-! SUPPORT. For every statement with hypotheses, a concrete state and operands that meet them, one per
clause at a boundary value where the clauses differ. The states are those of Tests/Slice0.lean, from
spec/95_test_vectors.md 2.3 and P3. -/

namespace Sys2Proof.Tests

open Sys2Proof.Machine Sys2Proof.Safety

theorem next_of_endsIn {r : Result} {t : State} (h : endsIn r t = true) : r = .next t := by
  cases r with
  | next u => rw [of_decide_eq_true h]
  | fault f => cases h
  | refused f => cases h

/-! ### States of the invariant -/

theorem builtState_inv : Inv builtState :=
  Inv.of_octets (bytes := builtOctets) (by decide) rfl rfl (by decide) (by decide) (by decide) (by decide)

theorem sentState_inv : Inv sentState :=
  Inv.of_octets (bytes := helloFrame ++ List.replicate 17 0xDD) (by decide) rfl rfl (by decide)
    (by decide) (by decide) (by decide)

theorem waitingState_inv : Inv waitingState :=
  Inv.of_octets (bytes := helloFrame ++ List.replicate 17 0xDD) (by decide) rfl rfl (by decide)
    (by decide) (by decide) (by decide)

/-- READY with the least capacity: no octet of FB holds a value. -/
theorem readyState_inv : Inv (readyState 42) where
  memory := List.Pairwise.nil
  extent := by simp [readyState]
  capacity := by simp [readyState]
  legal := by simp [readyState]
  written := by simp [readyState, headerExists]
  unwritten := by simp [readyState]
  constants := by simp [readyState, headerExists]
  pendingPhase := by simp [readyState]

theorem waitingState_frameInv : FrameInv waitingState where
  inv := waitingState_inv
  finished := fun _ =>
    ⟨5, 64, ⟨(helloFrame.drop 14).take 20, by decide⟩, by decide, by decide, by decide, by decide,
      memRead_ok (c := 64) (by decide) (by decide) (by decide), by decide⟩
  handed := fun _ =>
    ⟨[], ⟨⟨0⟩, dstMac, helloFrame, 47⟩, rfl, rfl, by decide, by decide, by decide, by decide⟩

/-! ### Encoding -/

theorem witness_DecodeOfEncode : commonBuild.WellFormed = true := by decide

theorem witness_EncodeOfDecode : decode commonPacket = .ok commonBuild := test_decode_buildHeader

theorem witness_ReservedOpcodesAnswered :
    let s : State := { State.reset with inputs := [.command [0x33, 0x00]] }
    s.pending = false ∧ s.inputs = .command (0x33 :: [0x00]) :: [] ∧
      decode (0x33 :: [0x00]) = .error .opcodeError := by decide

theorem witness_MalformedPacketsAnswered :
    let s : State := { State.reset with inputs := [.command [0x32, 0, 0, 0, 1]] }
    s.pending = false ∧ s.inputs = .command [0x32, 0, 0, 0, 1] :: [] ∧
      decode [0x32, 0, 0, 0, 1] = .error .formatError := by decide

/-! ### Codec and checksum -/

theorem witness_pending_clear : State.reset.pending = false := rfl

theorem witness_CodecRoundTripOctetsFirst : ([0xFF, 0xFF] : List Byte).length = 2 := rfl

theorem witness_OnesFoldCharacterised :
    (0x9FFF6 : Nat) ≠ 0 ∧ (∀ w ∈ [0xFFFF, 0xFFFF], w ≤ 0xFFFF) ∧
      1 ≤ 0xFFFF ∧ 0xFFFF ≤ 0xFFFF ∧ 0xFFFF % 0xFFFF = 0x9FFF6 % 0xFFFF := by decide

theorem witness_ChecksumSelfVerifies :
    (withChecksumWord ⟨[0x61, 0xDA], rfl⟩ knownVector).val
      = knownVector.val.take 10 ++ encodeBe 2 (ipChecksum knownVector) ++ knownVector.val.drop 12 := by
  decide

/-- The bound itself and the largest low half beside the largest carry. -/
theorem witness_ChecksumBounds :
    (0x9FFF6 : Nat) ≤ 0x9FFF6 ∧ 0x9FFF6 / 65536 = 9 ∧ 0x8FFFF ≤ 0x9FFF6 ∧
      0x10000 ≤ 0x8FFFF % 65536 + 0x8FFFF / 65536 ∧ 0x9FFF6 % 65536 + 0x9FFF6 / 65536 < 0x10000 := by
  decide

/-! ### Builder -/

theorem witness_InitResult_sequence : (readyState 42).pending = false ∧ (readyState 42).phase ≠ .uninit := by
  decide

/-- Both sides of both bounds. -/
theorem witness_InitResult_bounds :
    State.reset.pending = false ∧ State.reset.phase = .uninit ∧ (41 : BitVec 32).toNat < 42 ∧
      65549 < (65550 : BitVec 32).toNat ∧ 42 ≤ (42 : BitVec 32).toNat ∧
      (42 : BitVec 32).toNat ≤ 65549 ∧ (65549 : BitVec 32).toNat ≤ 65549 := by decide

theorem witness_SequenceErrors :
    (State.reset.pending = false ∧ State.reset.phase = .uninit) ∧
    ((readyState 42).pending = false ∧ (readyState 42).phase = .ready) ∧
    (sentState.pending = false ∧ sentState.phase ≠ .uninit) := by decide

/-- One length wrong at a time, zero included. -/
theorem witness_AddressLengthErrors :
    (readyState 42).pending = false ∧ (readyState 42).phase ≠ .uninit ∧
      ([] : List Byte).length ≠ 6 ∧ (List.replicate 7 (0 : Byte)).length ≠ 6 ∧
      (List.replicate 3 (0 : Byte)).length ≠ 4 ∧ (List.replicate 5 (0 : Byte)).length ≠ 4 := by decide

/-- The least capacity, where no octet lies above the header. -/
theorem witness_BuildHeaderResult :
    (readyState 42).pending = false ∧ (readyState 42).phase ≠ .uninit ∧ (readyState 42).cap = some 42 ∧
      42 ≤ 42 ∧ Memory.wf (readyState 42).fb := by decide

theorem witness_BuildHeaderFrame :
    Memory.wf (readyState 64).fb ∧
      exec commonBuild (readyState 64) = .next { builtState with responses := [[0x00]] } :=
  ⟨List.Pairwise.nil, next_of_endsIn (by decide)⟩

/-- A header built afresh and one built before a SEND, one capacity, the longest payload. -/
theorem witness_RetargetLeavesNothingStale :
    Inv builtState ∧ Inv sentState ∧ builtState.pending = false ∧ sentState.pending = false ∧
      builtState.cap = some 64 ∧ sentState.cap = some 64 ∧ builtState.ipId = sentState.ipId ∧
      42 + (List.replicate 22 (0 : Byte)).length ≤ 64 :=
  ⟨builtState_inv, sentState_inv, by decide⟩

/-- The shortest payload that does not fit. -/
theorem witness_CapacityErrors :
    builtState.pending = false ∧ builtState.phase = .headerBuilt ∧ builtState.cap = some 64 ∧ 42 ≤ 64 ∧
      (List.replicate 23 (0 : Byte)).length > 64 - 42 := by decide

/-- The longest payload that fits, in HEADER_BUILT. -/
theorem witness_SendPhaseAResult :
    Inv builtState ∧ builtState.pending = false ∧ builtState.phase = .headerBuilt ∧
      builtState.cap = some 64 ∧ (List.replicate 22 (0 : Byte)).length ≤ 64 - 42 :=
  ⟨builtState_inv, by decide⟩

/-- No payload, in SENT. -/
theorem witness_SendPhaseAResult_empty :
    Inv sentState ∧ sentState.pending = false ∧ sentState.phase = .sent ∧ sentState.cap = some 64 ∧
      ([] : List Byte).length ≤ 64 - 42 :=
  ⟨sentState_inv, by decide⟩

/-- A SEND that completes: the request it issues. -/
theorem witness_send_completes :
    exec (.send [0x68, 0x65, 0x6C, 0x6C, 0x6F]) builtState = .next waitingState ∧
      waitingState.txRequests = builtState.txRequests ++ [⟨⟨0⟩, dstMac, helloFrame, 47⟩] ∧
      Inv builtState ∧ Memory.wf builtState.fb :=
  ⟨next_of_endsIn (by decide), rfl, builtState_inv, builtState_inv.memory⟩

/-- The least and the greatest count that is not 0. -/
theorem witness_PhaseBResult : (1 : BitVec 32) ≠ 0 ∧ (0xFFFFFFFF : BitVec 32) ≠ 0 := by decide

/-- FAIL, 0 and a count, each behind a command that is held. -/
theorem witness_AnswerEndsSend :
    let held : List Input := [.command [0x11, 0x08, 0x00]]
    waitingState.pending = true ∧ HeldBack waitingState held ∧
      (∀ r ∈ [TxResponse.fail, .count 0, .count 1, .count 0xFFFFFFFF],
        { waitingState with inputs := held ++ [Input.txAnswer 1 r] }.inputs
          = held ++ .txAnswer waitingState.txRequests.length r :: []) ∧
      (1 : BitVec 32) ≠ 0 := by
  refine ⟨rfl, ⟨by decide, ?_⟩, by decide, by decide⟩
  intro j hj
  exact ⟨_, List.mem_singleton.mp hj⟩

/-- The longest payload the capacity allows. -/
theorem witness_FrameInClosedForm :
    Inv (readyState 42) ∧ (readyState 42).pending = false ∧ (readyState 42).phase ≠ .uninit ∧
      (readyState 42).cap = some 42 ∧ 42 + ([] : List Byte).length ≤ 42 :=
  ⟨readyState_inv, by decide⟩

/-- Two payloads of one length, and two of different lengths. -/
theorem witness_RepeatedSendSameHeader :
    Inv builtState ∧ builtState.pending = false ∧ builtState.phase = .headerBuilt ∧
      builtState.cap = some 64 ∧ 42 + [0x68, (0x69 : Byte)].length ≤ 64 ∧
      42 + [0x69, (0x68 : Byte)].length ≤ 64 ∧ 42 + (List.replicate 22 (0 : Byte)).length ≤ 64 :=
  ⟨builtState_inv, by decide⟩

/-! ### The machine -/

theorem witness_StepRunsDecodedCommand :
    let s : State := { State.reset with inputs := [.command commonPacket, .reset] }
    s.pending = false ∧ s.inputs = .command commonPacket :: [.reset] ∧
      decode commonPacket = .ok commonBuild := by decide

theorem witness_PresentedPacketRuns : decodeTableWord 8 0x20 = some (.ipcsum ⟨List.replicate 20 0, rfl⟩) :=
  test_decodeTableWord_ipcsum

theorem witness_DecoderErrorsAnswered :
    decode [0x14] = .error .opcodeError ∧ decode [] = .error .formatError := by decide

/-- Nothing but commands; a reset behind a command; an answer behind a command. -/
theorem witness_PendingHoldsCommands :
    let c : Input := .command [0xFF]
    waitingState.pending = true ∧ HeldBack waitingState [c] ∧
      (∀ j ∈ { waitingState with inputs := [c] }.inputs, ∃ p, j = .command p) ∧
      { waitingState with inputs := [c, .reset] }.inputs = [c] ++ .reset :: [] ∧
      { waitingState with inputs := [c, .txAnswer 1 .fail] }.inputs
        = [c] ++ .txAnswer waitingState.txRequests.length .fail :: [] := by
  have h : ∀ j ∈ [Input.command [0xFF]], ∃ p, j = .command p :=
    fun j hj => ⟨_, List.mem_singleton.mp hj⟩
  exact ⟨rfl, ⟨by decide, h⟩, h, rfl, rfl⟩

theorem witness_WaitsWithoutInput : State.reset.inputs = [] := rfl

/-- Reset while PENDING = 0, where nothing is held back. -/
theorem witness_ResetEffects :
    HeldBack builtState [] ∧
      { builtState with inputs := [.reset, .command [0x20]] }.inputs = [] ++ .reset :: [.command [0x20]] :=
  ⟨⟨fun _ => rfl, by simp⟩, rfl⟩

/-- An answer when nothing is outstanding, and one to another request. -/
theorem witness_PendingSendAbandoned :
    HeldBack State.reset [] ∧ State.reset.pending = false ∧
      { State.reset with inputs := [.txAnswer 1 .fail] }.inputs = [] ++ .txAnswer 1 .fail :: [] ∧
      HeldBack waitingState [] ∧ 2 ≠ waitingState.txRequests.length :=
  ⟨⟨fun _ => rfl, by simp⟩, rfl, rfl, ⟨by decide, by simp⟩, by decide⟩

theorem witness_StepKeepsInvariant :
    Inv { waitingState with inputs := [.txAnswer 1 (.count 47)] } ∧
      step { waitingState with inputs := [.txAnswer 1 (.count 47)] } = .next { waitingState with
        pending := false, phase := .sent, responses := [[0x00, 0x00, 0x00, 0x00, 0x2F]] } :=
  ⟨Inv.of_octets (bytes := helloFrame ++ List.replicate 17 0xDD) (by decide) rfl rfl (by decide)
    (by decide) (by decide) (by decide), next_of_endsIn (by decide)⟩

theorem witness_StepKeepsFrameInvariant :
    FrameInv waitingState ∧ step waitingState = .next waitingState :=
  ⟨waitingState_frameInv, rfl⟩

theorem witness_ConfigurationInputsConstant : step State.reset = .next State.reset := rfl

/-- A state with CAP set. -/
theorem witness_CapacityFixedOnceSet :
    Inv builtState ∧ builtState.cap = some 64 ∧ step builtState = .next builtState :=
  ⟨builtState_inv, by decide, rfl⟩

/-- One change of STATE of each kind: INIT, BUILD_HEADER, phase B, reset. -/
theorem witness_StateTransitions :
    step { State.reset with inputs := [.command [0x30, 0, 0, 0, 0x40]] }
      = .next { readyState 64 with responses := [[0x00]] } ∧
    step { readyState 64 with inputs := [.command commonPacket] }
      = .next { builtState with responses := [[0x00]] } ∧
    step { builtState with inputs := [.reset] } = .next State.reset :=
  ⟨next_of_endsIn (by decide), next_of_endsIn (by decide), next_of_endsIn (by decide)⟩

/-- PENDING = 1: a wait, the awaited answer, a reset. -/
theorem witness_CommandAnsweredOnce_pending :
    waitingState.pending = true ∧ step waitingState = .next waitingState ∧
    step { waitingState with inputs := [.txAnswer 1 .fail] }
      = .next { waitingState with pending := false, responses := [[0x02]] } ∧
    step { waitingState with inputs := [.reset] }
      = .next { State.reset with txRequests := waitingState.txRequests } :=
  ⟨rfl, rfl, next_of_endsIn (by decide), next_of_endsIn (by decide)⟩

/-- PENDING = 0 and no command next: a late answer. -/
theorem witness_CommandAnsweredOnce_idle :
    let s : State := { builtState with inputs := [.txAnswer 1 .fail] }
    s.pending = false ∧ (∀ p left, s.inputs ≠ .command p :: left) ∧ step s = .next builtState :=
  ⟨rfl, by simp, next_of_endsIn (by decide)⟩

theorem witness_CommandAnsweredOnce :
    let s : State := { builtState with inputs := [.command [0x32, 0, 0, 0, 5, 0x68, 0x65, 0x6C, 0x6C, 0x6F]] }
    s.pending = false ∧ step s = .next waitingState :=
  ⟨rfl, next_of_endsIn (by decide)⟩

theorem witness_ErrorsButTransmitErrorLeaveNothing :
    let s : State := { builtState with inputs := [.command [0x30, 0, 0, 0, 0x40]] }
    s.pending = false ∧ step s = .next { builtState with responses := [] ++ [0x80 :: []] } ∧
      (0x80 : Byte) ≠ 0x00 :=
  ⟨rfl, next_of_endsIn (by decide), by decide⟩

end Sys2Proof.Tests
end

section
/-! PROOFS. What a step with PENDING = 0 runs (spec/00_scope.md R7, R14; spec/30_encoding.md R100,
R105): O34 and O35. -/

namespace Sys2Proof.Proofs

open Sys2Proof.Machine

/-- While PENDING = 0 the packet at the head of the port is taken and run (spec/00_scope.md R14). -/
theorem step_command {s : State} {p : List Byte} {left : List Input} (hp : s.pending = false)
    (hin : s.inputs = .command p :: left) : step s = runPacket p { s with inputs := left } := by
  simp only [step, hp, hin, nextInput_idle]

/-- A packet that decodes to a command runs it (spec/30_encoding.md R105). -/
theorem runPacket_of_decode {p : List Byte} {i : Instr} (h : decode p = .ok i) (s : State) :
    runPacket p s = exec i s := by
  simp only [runPacket, h]

theorem decodeTableWord_eq_some {nbits w : Nat} {i : Instr} :
    decodeTableWord nbits w = some i ↔ decode (tablePacket nbits w) = .ok i := by
  unfold decodeTableWord
  cases decode (tablePacket nbits w) with
  | ok j => simp
  | error e => simp

/-- Settles O34: the packet taken is the one at the head, and running it is `exec` of what it decodes
to. -/
theorem stepRunsDecodedCommand : Obligations.StepRunsDecodedCommand := by
  intro s p i left hp hin hdec
  rw [step_command hp hin, runPacket_of_decode hdec]

/-- Settles O35: `withFetchWord` puts the packet at the head and clears PENDING, so O34 applies. -/
theorem presentedPacketRuns : Obligations.PresentedPacketRuns := by
  intro s nbits w i hw
  exact stepRunsDecodedCommand (s.withFetchWord nbits w) (tablePacket nbits w) i s.inputs
    (withFetchWord_pending s nbits w) (withFetchWord_inputs s nbits w)
    (decodeTableWord_eq_some.mp hw)

end Sys2Proof.Proofs
end

section
/-! PROOFS. The bounds of the word sums and the passes of the fold (spec/41_checksum.md R161 to R163,
R167): O16. -/

namespace Sys2Proof.Proofs

open Sys2Proof.Machine

/-! ### The words and their sums -/

@[simp] theorem ipWords_length (h : Octets 20) : (ipWords h).length = 10 := by simp [ipWords]

theorem ipWords_getElem (h : Octets 20) {k : Nat} (hk : k < (ipWords h).length) :
    (ipWords h)[k] = decodeBe ((h.val.drop (2 * k)).take 2) := by simp [ipWords]

/-- At most two octets hold at most 0xFFFF (R132). -/
theorem decodeBe_le_of_length_le_two {b : List Byte} (hb : b.length ≤ 2) : decodeBe b ≤ 0xFFFF := by
  have hlt := decodeBe_lt b
  have hpow : 256 ^ b.length ≤ 256 ^ 2 := Nat.pow_le_pow_right (by decide) hb
  omega

/-- Each word is at most 0xFFFF (R167). -/
theorem ipWords_le {h : Octets 20} {w : Nat} (hw : w ∈ ipWords h) : w ≤ 0xFFFF := by
  obtain ⟨k, -, rfl⟩ := List.mem_map.mp hw
  exact decodeBe_le_of_length_le_two (List.length_take_le 2 _)

/-- Replacing octets 10 and 11 replaces word 5 and no other word (R161, R164). -/
theorem ipWords_withChecksumWord (c : Octets 2) (h : Octets 20) :
    ipWords (withChecksumWord c h) = (ipWords h).set 5 (decodeBe c.val) := by
  have hc := c.property
  have hh := h.property
  refine List.ext_getElem (by simp) fun k hk _ => ?_
  rw [ipWords_length] at hk
  rw [ipWords_getElem, withChecksumWord_val, List.getElem_set]
  obtain hlt | rfl | hgt := Nat.lt_trichotomy k 5
  · rw [if_neg (by omega), ipWords_getElem, List.append_assoc,
      List.drop_append_of_le_length (by simp; omega), List.take_append_of_le_length (by simp; omega),
      List.drop_take, List.take_take, Nat.min_eq_left (by omega)]
  · simp [hc, hh]
  · have hfront : (h.val.take 10 ++ c.val).length = 12 := by simp [hc, hh]
    rw [if_neg (by omega), ipWords_getElem, List.drop_append, List.drop_of_length_le (by omega),
      List.nil_append, hfront, List.drop_drop, Nat.add_sub_cancel' (by omega)]

/-- A word set to zero adds nothing to the sum. -/
theorem sum_set_zero (ws : List Nat) (n : Nat) : (ws.set n 0).sum = (ws.eraseIdx n).sum := by
  simp [List.sum_set, List.eraseIdx_eq_take_drop_succ]

/-- The sum of the ten words (R167). -/
theorem ipWords_sum_le (h : Octets 20) : (ipWords h).sum ≤ 0x9FFF6 := by
  simpa using List.sum_le_card_nsmul (ipWords h) 0xFFFF fun w hw => ipWords_le hw

/-- The sum of the nine words other than the checksum word (R167). -/
theorem ipWords_eraseIdx_sum_le (h : Octets 20) : ((ipWords h).eraseIdx 5).sum ≤ 0x8FFF7 := by
  have hle : ∀ w ∈ (ipWords h).eraseIdx 5, w ≤ 0xFFFF := fun w hw =>
    ipWords_le (List.mem_of_mem_eraseIdx hw)
  simpa [List.length_eraseIdx] using List.sum_le_card_nsmul _ 0xFFFF hle

/-- With the checksum word zero the sum is the one of the other nine words (R164). -/
theorem ipWords_zeroed_sum (h : Octets 20) :
    (ipWords (withChecksumWord ⟨[0x00, 0x00], rfl⟩ h)).sum = ((ipWords h).eraseIdx 5).sum := by
  have hzero : decodeBe [0x00, 0x00] = 0 := rfl
  rw [ipWords_withChecksumWord, hzero, sum_set_zero]

/-- The accumulator never wraps on a header (R163, R167). -/
theorem accumulate_ipWords (h : Octets 20) : (accumulate (ipWords h)).toNat = (ipWords h).sum :=
  accumulate_toNat (Nat.lt_of_le_of_lt (ipWords_sum_le h) (by decide))

/-! ### The passes of the fold -/

/-- A pass keeps the folded value, also where the loop has ended already (R162). -/
theorem onesFold_firstPass (acc : Nat) : onesFold acc = onesFold (acc % 65536 + acc / 65536) := by
  by_cases h : acc < 65536
  · rw [Nat.mod_eq_of_lt h, Nat.div_eq_of_lt h, Nat.add_zero]
  · exact onesFold_pass (Nat.le_of_not_lt h)

/-- One pass is enough where it leaves no carry (R162). -/
theorem onesFold_of_firstPass_lt {acc : Nat} (h : acc % 65536 + acc / 65536 < 65536) :
    onesFold acc = acc % 65536 + acc / 65536 := by
  rw [onesFold_firstPass, onesFold_small h]

/-- One pass from a sum of ten words (R167). -/
theorem firstPass_le {acc : Nat} (h : acc ≤ 0x9FFF6) : acc % 65536 + acc / 65536 ≤ 0x10007 := by
  omega

/-- A second pass from what a first one can leave, where it leaves a carry, ends at 8 or less (R167). -/
theorem secondPass_le {t : Nat} (hcarry : 0x10000 ≤ t) (h : t ≤ 0x10007) :
    t % 65536 + t / 65536 ≤ 8 := by
  omega

/-- Settles O16: ten words of at most 0xFFFF each, the checksum word adding nothing once zeroed; then
the passes, of which the second leaves no carry. -/
theorem checksumBounds : Obligations.ChecksumBounds := by
  refine ⟨fun h => ⟨ipWords_length h, fun w hw => ipWords_le hw, ipWords_sum_le h, ?_, rfl,
    accumulate_ipWords h⟩, fun acc hacc => ⟨firstPass_le hacc, ?_, fun hcarry => ?_,
    onesFold_of_firstPass_lt⟩⟩
  · rw [ipWords_zeroed_sum]
    exact ipWords_eraseIdx_sum_le h
  · intro hhigh
    omega
  · have hend := secondPass_le hcarry (firstPass_le hacc)
    rw [onesFold_firstPass acc, onesFold_of_firstPass_lt (Nat.lt_of_le_of_lt hend (by decide))]
    exact ⟨rfl, hend⟩

end Sys2Proof.Proofs
end

section
/-! PROOFS. Everything a step can do, with the command it ran, as one inductive case distinction
(spec/10_state.md R24, R33; spec/70_reset_and_hazards.md R280, R291). -/

namespace Sys2Proof.Proofs

open Sys2Proof.Machine

/-- What running the packet `p` does: an answer and nothing else, or the effect of one of the builder's
three commands, with the checks it passed. -/
inductive PacketEffect (p : List Byte) (s t : State) : Prop
  | answered (st : Status) (result : List Byte) (ht : t = respond st result s)
  | init (c : BitVec 32) (hdec : decode p = .ok (.init c)) (hphase : s.phase = .uninit)
      (hlegal : capacityLegal c.toNat = true)
      (ht : t = respond .ok [] { s with cap := some c.toNat, fb := [], phase := .ready })
  | buildHeader (sm dm si di : List Byte) (sp dp : BitVec 16) (c : Nat) (m : Memory)
      (hdec : decode p = .ok (.buildHeader sm dm si di sp dp)) (hphase : s.phase ≠ .uninit)
      (hlen : addressLengthsLegal sm dm si di = true) (hcap : s.cap = some c)
      (hwrite : writeHeaders sm dm si di sp dp c s = .ok { s with fb := m })
      (ht : t = respond .ok [] { s with fb := m, phase := .headerBuilt })
  | send (payload : List Byte) (c : Nat) (m : Memory) (dst data : List Byte)
      (hdec : decode p = .ok (.send payload)) (hphase : headerExists s.phase = true)
      (hcap : s.cap = some c) (hfit : 42 + payload.length ≤ c)
      (hwrite : finalizeFrame payload s = .ok { s with fb := m })
      (hdst : readOctets m 0 6 = some dst)
      (hdata : readOctets m 0 (42 + payload.length) = some data)
      (ht : t = issueTxRequest dst data (42 + payload.length) { s with fb := m })

theorem packetEffect_of_init {p : List Byte} {c : BitVec 32} {s t : State}
    (hdec : decode p = .ok (.init c)) (h : execInit c s = .next t) : PacketEffect p s t := by
  obtain ⟨-, ⟨-, ht⟩ | ⟨-, -, ht⟩ | ⟨hphase, hlegal, ht⟩⟩ := execInit_cases h
  · exact .answered _ _ ht
  · exact .answered _ _ ht
  · exact .init c hdec hphase hlegal ht

theorem packetEffect_of_buildHeader {p sm dm si di : List Byte} {sp dp : BitVec 16} {s t : State}
    (hdec : decode p = .ok (.buildHeader sm dm si di sp dp))
    (h : execBuildHeader sm dm si di sp dp s = .next t) : PacketEffect p s t := by
  obtain ⟨-, ⟨-, ht⟩ | ⟨-, -, ht⟩ | ⟨c, u, hphase, hlen, hcap, hwrite, ht⟩⟩ :=
    execBuildHeader_cases h
  · exact .answered _ _ ht
  · exact .answered _ _ ht
  · obtain ⟨m, rfl, -⟩ := writeHeaders_cases hcap hwrite
    exact .buildHeader sm dm si di sp dp c m hdec hphase hlen hcap hwrite ht

theorem packetEffect_of_send {p payload : List Byte} {s t : State}
    (hdec : decode p = .ok (.send payload)) (h : execSend payload s = .next t) :
    PacketEffect p s t := by
  obtain ⟨-, ⟨-, ht⟩ | ⟨c, -, -, -, ht⟩ | ⟨c, u, hphase, hcap, hfit, hwrite, hhand⟩⟩ :=
    execSend_cases h
  · exact .answered _ _ ht
  · exact .answered _ _ ht
  · obtain ⟨m, rfl, -⟩ := finalizeFrame_cases hwrite
    obtain ⟨dst, data, hdst, hdata, ht⟩ := handOff_cases hhand
    exact .send payload c m dst data hdec hphase hcap hfit hwrite hdst hdata ht

/-- A codec command or IPCSUM answers and changes nothing (spec/40_codec.md R150;
spec/41_checksum.md R166). -/
theorem packetEffect_of_pure {p : List Byte} {i : Instr} {s t : State} (hi : pureCommand i = true)
    (hp : s.pending = false) (h : exec i s = .next t) : PacketEffect p s t := by
  obtain ⟨result, hexec⟩ := exec_pure hi
  rw [hexec s hp] at h
  exact .answered _ result (Host.Outcome.next.inj h).symm

/-- A packet that is no command is answered with the decoder's error (spec/60_exceptions.md R248); a
command has its own effect. -/
theorem packetEffect_of_runPacket {p : List Byte} {s t : State} (hp : s.pending = false)
    (h : runPacket p s = .next t) : PacketEffect p s t := by
  cases hdec : decode p with
  | error e =>
    simp only [runPacket, hdec] at h
    exact .answered _ _ (Host.Outcome.next.inj h).symm
  | ok i =>
    rw [runPacket_of_decode hdec] at h
    cases i with
    | init c => exact packetEffect_of_init hdec h
    | buildHeader sm dm si di sp dp => exact packetEffect_of_buildHeader hdec h
    | send payload => exact packetEffect_of_send hdec h
    | _ => exact packetEffect_of_pure rfl hp h

/-- What one step does: it changes at most what is left of the inputs, or runs the packet at the head,
or resets, or ends the SEND that waits with a failure or with a count. -/
inductive StepEffect (s t : State) : Prop
  | inputs (left : List Input) (ht : t = { s with inputs := left })
  | packet (p : List Byte) (left : List Input) (hp : s.pending = false)
      (hin : s.inputs = .command p :: left) (heff : PacketEffect p { s with inputs := left } t)
  | reset (left : List Input) (hin : nextInput s.pending s.inputs = some (.reset, left))
      (ht : t = applyReset { s with inputs := left })
  | sendFailed (left : List Input) (hp : s.pending = true)
      (ht : t = respond .transmitError [] { s with inputs := left, pending := false })
  | sendDone (n : BitVec 32) (left : List Input) (hp : s.pending = true) (hn : n ≠ 0)
      (hin : nextInput true s.inputs = some (.txAnswer s.txRequests.length (.count n), left))
      (ht : t = respond .ok (encodeBe 4 n)
        { s with inputs := left, pending := false, phase := .sent })

theorem stepEffect_of_step {s t : State} (h : step s = .next t) : StepEffect s t := by
  obtain ⟨-, hs⟩ | ⟨p, left, hp, hin, hs⟩ | ⟨left, hin, hs⟩ | ⟨q, r, left, -, -, hs⟩ |
    ⟨q, r, left, hin, hp, rfl, hs⟩ := step_cases s
  all_goals rw [hs] at h
  · exact .inputs s.inputs (Host.Outcome.next.inj h).symm
  · exact .packet p left hp hin (packetEffect_of_runPacket hp h)
  · exact .reset left hin (Host.Outcome.next.inj h).symm
  · exact .inputs left (Host.Outcome.next.inj h).symm
  · obtain ⟨hB, -⟩ | ⟨n, rfl, hn, hB⟩ := sendPhaseB_cases r { s with inputs := left }
    · rw [hB] at h
      exact .sendFailed left hp (Host.Outcome.next.inj h).symm
    · rw [hB] at h
      rw [hp] at hin
      exact .sendDone n left hp hn hin (Host.Outcome.next.inj h).symm

end Sys2Proof.Proofs
end

section
/-! PROOFS. The invariant of the block, operation by operation (spec/10_state.md R24 to R27, R32, R36;
spec/20_memory.md R50): O41, O42 and O43. -/

namespace Sys2Proof.Proofs

open Sys2Proof.Machine Sys2Proof.Safety

/-! ### Changes outside FB -/

/-- The invariant does not speak of IFH or of the traffic on the ports. -/
theorem inv_with_ports {s : State} (h : Inv s) (ifh : IfHandle) (inputs : List Input)
    (responses : List (List Byte)) (txRequests : List TxRequest) :
    Inv { s with ifh := ifh, inputs := inputs, responses := responses, txRequests := txRequests } :=
  ⟨h.memory, h.extent, h.capacity, h.legal, h.written, h.unwritten, h.constants, h.pendingPhase⟩

theorem inv_with_inputs {s : State} (h : Inv s) (left : List Input) :
    Inv { s with inputs := left } :=
  inv_with_ports h s.ifh left s.responses s.txRequests

theorem inv_respond {s : State} (h : Inv s) (st : Status) (result : List Byte) :
    Inv (respond st result s) :=
  inv_with_ports h s.ifh s.inputs (s.responses ++ [responsePacket st result]) s.txRequests

/-- PENDING may be cleared anywhere, and set where a header exists (R24, R27). -/
theorem inv_with_pending {s : State} (h : Inv s) {b : Bool}
    (hb : b = true → headerExists s.phase = true) : Inv { s with pending := b } :=
  ⟨h.memory, h.extent, h.capacity, h.legal, h.written, h.unwritten, h.constants, hb⟩

theorem inv_issueTxRequest {s : State} (h : Inv s) (hphase : headerExists s.phase = true)
    (dst data : List Byte) (n : Nat) : Inv (issueTxRequest dst data n s) :=
  inv_with_ports (inv_with_pending h (b := true) fun _ => hphase) s.ifh s.inputs s.responses
    (s.txRequests ++ [({ ifh := s.ifh, dst := dst, data := data, n := n } : TxRequest)])

/-- Among the STATEs with a header the invariant does not tell one from another (R36). -/
theorem inv_with_phase {s : State} (h : Inv s) (hs : headerExists s.phase = true) {ph : BuilderState}
    (hph : headerExists ph = true) : Inv { s with phase := ph } where
  memory := h.memory
  extent := h.extent
  capacity := by
    have hne : ∀ {q : BuilderState}, headerExists q = true → q ≠ .uninit := by
      rintro q hq rfl
      cases hq
    exact ⟨fun hu => absurd hu (hne hph), fun hc => absurd (h.capacity.mpr hc) (hne hs)⟩
  legal := h.legal
  written := fun _ => h.written hs
  unwritten := fun hf => absurd (hph.symm.trans hf) (by decide)
  constants := fun _ => h.constants hs
  pendingPhase := fun _ => hph

/-! ### Reset and INIT: no octet holds a value -/

/-- Before the first BUILD_HEADER the invariant is a matter of CAP alone (R25, R26). -/
theorem inv_of_no_header {s : State} (hphase : headerExists s.phase = false) (hfb : s.fb = [])
    (hpend : s.pending = false) (hcap : s.phase = .uninit ↔ s.cap = none)
    (hlegal : ∀ c, s.cap = some c → 42 ≤ c ∧ c ≤ 65549) : Inv s where
  memory := by rw [hfb]; exact List.Pairwise.nil
  extent := by simp [hfb]
  capacity := hcap
  legal := hlegal
  written := by simp [hphase]
  unwritten := fun _ => hfb
  constants := by simp [hphase]
  pendingPhase := by simp [hpend]

/-- Settles O41: the values R32 lists. -/
theorem resetStateValues : Obligations.ResetStateValues :=
  ⟨reset_phase, reset_cap, reset_fb, reset_pending⟩

theorem inv_reset : Inv State.reset :=
  inv_of_no_header rfl reset_fb reset_pending (by simp) (by simp)

/-- Settles O42: nothing is written in UNINIT, and no SEND has ended or waits. -/
theorem resetSatisfiesInvariant : Obligations.ResetSatisfiesInvariant :=
  ⟨inv_reset, { inv := inv_reset, finished := by simp, handed := by simp }⟩

/-- Reset at any time leads into the invariant, whatever state it finds
(spec/70_reset_and_hazards.md R280). -/
theorem inv_applyReset (s : State) : Inv (applyReset s) :=
  inv_of_no_header rfl (applyReset_fb s) (applyReset_pending s) (by simp) (by simp)

theorem capacityLegal_iff {c : Nat} : capacityLegal c = true ↔ 42 ≤ c ∧ c ≤ 65549 := by
  simp only [capacityLegal, Bool.and_eq_true, decide_eq_true_eq]
  exact Iff.rfl

/-- In UNINIT no request is outstanding (R24, R27). -/
theorem pending_of_uninit {s : State} (h : Inv s) (hphase : s.phase = .uninit) :
    s.pending = false := by
  by_contra hp
  have hex := h.pendingPhase (by simpa using hp)
  rw [hphase] at hex
  cases hex

/-- A successful INIT (spec/42_builder.md R181, R182). -/
theorem inv_init {s : State} (h : Inv s) (hphase : s.phase = .uninit) {c : Nat}
    (hlegal : capacityLegal c = true) :
    Inv { s with cap := some c, fb := [], phase := .ready } := by
  have hpend := pending_of_uninit h hphase
  refine inv_of_no_header rfl rfl hpend (by simp) fun d hd => ?_
  obtain rfl : c = d := Option.some.inj hd
  exact capacityLegal_iff.mp hlegal

/-! ### BUILD_HEADER -/

/-- A block of a list, by the length of what stands before it. -/
theorem drop_take_block {X b Y : List Byte} {a n : Nat} (hX : X.length = a) (hb : b.length = n) :
    ((X ++ b ++ Y).drop a).take n = b := by
  subst hX hb
  rw [List.append_assoc, List.drop_left, List.take_left]

/-- EtherType, version and header length, and TOS of a built header (spec/42_builder.md R187). -/
theorem builtHeader_constants_at_12 (ipId : BitVec 16) (p : FrameParams) (rest : List Byte) :
    ((builtHeader ipId p ++ rest).drop 12).take 4 = [0x08, 0x00, 0x45, 0x00] := by
  have hsplit : builtHeader ipId p ++ rest = (p.dstMac.val ++ p.srcMac.val)
      ++ [0x08, 0x00, 0x45, 0x00] ++ ((builtHeader ipId p).drop 16 ++ rest) := by
    have hether : encodeBe 2 ethertypeIpv4 = [0x08, 0x00] := by decide
    simp [builtHeader, hether, ipVihl, ipTos, List.drop_append, p.dstMac.property,
      p.srcMac.property, List.drop_of_length_le]
  rw [hsplit]
  exact drop_take_block (by simp [p.dstMac.property, p.srcMac.property]) rfl

/-- Identification, flags, TTL and protocol of a built header (spec/42_builder.md R187). -/
theorem builtHeader_constants_at_18 (ipId : BitVec 16) (p : FrameParams) (rest : List Byte) :
    ((builtHeader ipId p ++ rest).drop 18).take 6 = encodeBe 2 ipId ++ [0x40, 0x00, 0x40, 0x11] := by
  have hsplit : builtHeader ipId p ++ rest
      = (p.dstMac.val ++ p.srcMac.val ++ encodeBe 2 ethertypeIpv4 ++ [ipVihl, ipTos, poison, poison])
        ++ (encodeBe 2 ipId ++ [0x40, 0x00, 0x40, 0x11])
        ++ ((builtHeader ipId p).drop 24 ++ rest) := by
    have hflags : encodeBe 2 ipFlagsFrag = [0x40, 0x00] := by decide
    simp [builtHeader, hflags, ipTtl, ipProtoUdp, List.drop_append, p.dstMac.property,
      p.srcMac.property, List.drop_of_length_le]
  rw [hsplit]
  exact drop_take_block (by simp [p.dstMac.property, p.srcMac.property])
    (by simp)

/-- Address operands of the legal lengths, with the ports, are the caller's part of one frame
(spec/42_builder.md R185). -/
theorem exists_frameParams {sm dm si di : List Byte} (h : addressLengthsLegal sm dm si di = true)
    (sp dp : BitVec 16) : ∃ p : FrameParams, p.srcMac.val = sm ∧ p.dstMac.val = dm ∧
      p.srcIp.val = si ∧ p.dstIp.val = di ∧ p.srcPort = sp ∧ p.dstPort = dp := by
  simp only [addressLengthsLegal, Bool.and_eq_true, decide_eq_true_eq] at h
  obtain ⟨⟨⟨hsm, hdm⟩, hsi⟩, hdi⟩ := h
  exact ⟨⟨⟨sm, hsm⟩, ⟨dm, hdm⟩, ⟨si, hsi⟩, ⟨di, hdi⟩, sp, dp⟩, rfl, rfl, rfl, rfl, rfl, rfl⟩

/-- No octet at or above CAP holds a value (spec/20_memory.md R50). -/
theorem lt_cap_of_readOctet {s : State} (h : Inv s) {c : Nat} (hcap : s.cap = some c) {a : Nat}
    {b : Byte} (hr : readOctet s.fb a = some b) : a < c := by
  obtain ⟨d, hd, hlt⟩ := h.extent a b hr
  rw [hcap] at hd
  exact Option.some.inj hd ▸ hlt

/-- A successful BUILD_HEADER: FB is the built header and poison up to CAP (spec/42_builder.md R187,
R188). -/
theorem inv_buildHeader {s : State} (h : Inv s) {sm dm si di : List Byte} {sp dp : BitVec 16}
    {c : Nat} {m : Memory} (hlen : addressLengthsLegal sm dm si di = true) (hcap : s.cap = some c)
    (hwrite : writeHeaders sm dm si di sp dp c s = .ok { s with fb := m }) :
    Inv { s with fb := m, phase := .headerBuilt } := by
  obtain ⟨p, rfl, rfl, rfl, rfl, rfl, rfl⟩ := exists_frameParams hlen sp dp
  obtain ⟨h42, hmax⟩ := h.legal c hcap
  rw [writeHeaders_ok p hcap h42 fun x b hr => lt_cap_of_readOctet h hcap hr] at hwrite
  have hm : cellsAt 0 (builtHeader s.ipId p ++ List.replicate (c - 42) poison) = m :=
    congrArg State.fb (Except.ok.inj hwrite)
  have hlength : (builtHeader s.ipId p ++ List.replicate (c - 42) poison).length = c := by
    rw [List.length_append, builtHeader_length, List.length_replicate]
    omega
  exact Inv.of_octets (bytes := builtHeader s.ipId p ++ List.replicate (c - 42) poison) rfl
    (by rw [hlength]; exact hcap) hm.symm (by rw [hlength]; exact h42) (by rw [hlength]; exact hmax)
    (builtHeader_constants_at_12 _ _ _) (builtHeader_constants_at_18 _ _ _)

/-! ### SEND phase A -/

theorem finishedOctets_length {bytes payload : List Byte} (csum : BitVec 16)
    (hfit : 42 + payload.length ≤ bytes.length) :
    (finishedOctets bytes payload csum).length = bytes.length := by
  simp only [finishedOctets, List.length_append, List.length_take, List.length_drop,
    encodeBe_length, List.length_cons, List.length_nil]
  omega

/-- The header constants lie outside what SEND stores to (spec/10_state.md R33). -/
theorem headerConstants_of_sendStores {s : State} {m : Memory} {l : Nat} (hw : Memory.wf s.fb)
    (hchange : ChangesFbAt (sendStores l) s { s with fb := m }) (h : HeaderConstants s) :
    HeaderConstants { s with fb := m } := by
  obtain ⟨m', heq, hm'⟩ := hchange
  obtain rfl : m = m' := congrArg State.fb heq
  obtain ⟨hwf, hkeep⟩ := hm' hw
  obtain ⟨h12, h18⟩ := h
  have hread : ∀ a n, (∀ i, i < n → ¬ sendStores l (a + i)) →
      readOctets m a n = readOctets s.fb a n := fun a n hout =>
    readOctets_congr hwf hw fun i hi => hkeep (a + i) (hout i hi)
  refine ⟨(hread 12 4 fun i hi => ?_).trans h12, (hread 18 6 fun i hi => ?_).trans h18⟩
  all_goals
    unfold sendStores
    omega

/-- SEND phase A leaves a value in every octet of FB, and the header constants as they were
(spec/42_builder.md R191 to R195). -/
theorem inv_finalizeFrame {s : State} (h : Inv s) (hphase : headerExists s.phase = true)
    {payload : List Byte} {c : Nat} {m : Memory} (hcap : s.cap = some c)
    (hfit : 42 + payload.length ≤ c)
    (hwrite : finalizeFrame payload s = .ok { s with fb := m }) : Inv { s with fb := m } := by
  obtain ⟨bytes, hbytes, hfb, h42, hmax⟩ := h.octets hphase
  obtain rfl : c = bytes.length := Option.some.inj (hcap.symm.trans hbytes)
  obtain ⟨h12, h18⟩ := headerConstants_of_sendStores h.memory (finalizeFrame_cases hwrite)
    (h.constants hphase)
  rw [finalizeFrame_ok hcap hfb hfit hmax] at hwrite
  obtain rfl := congrArg State.fb (Except.ok.inj hwrite)
  have hlength := finishedOctets_length
    (ipChecksum ⟨headerToSum bytes payload.length, headerToSum_length h42 payload.length⟩) hfit
  rw [readOctets_cellsAt (by rw [hlength]; omega), Option.some.injEq] at h12 h18
  exact Inv.of_octets hphase (by rw [hlength]; exact hcap) rfl (by rw [hlength]; exact h42)
    (by rw [hlength]; exact hmax) h12 h18

/-! ### Every step -/

theorem inv_of_packetEffect {p : List Byte} {s t : State} (h : Inv s) (heff : PacketEffect p s t) :
    Inv t := by
  cases heff with
  | answered st result ht =>
    rw [ht]
    exact inv_respond h st result
  | init c hdec hphase hlegal ht =>
    rw [ht]
    exact inv_respond (inv_init h hphase hlegal) _ _
  | buildHeader sm dm si di sp dp c m hdec hphase hlen hcap hwrite ht =>
    rw [ht]
    exact inv_respond (inv_buildHeader h hlen hcap hwrite) _ _
  | send payload c m dst data hdec hphase hcap hfit hwrite hdst hdata ht =>
    rw [ht]
    exact inv_issueTxRequest (inv_finalizeFrame h hphase hcap hfit hwrite) hphase _ _ _

/-- Settles O43: each effect a step can have keeps the invariant, or, as a reset, leads into it. -/
theorem stepKeepsInvariant : Obligations.StepKeepsInvariant := by
  intro s t h hstep
  cases stepEffect_of_step hstep with
  | inputs left ht =>
    rw [ht]
    exact inv_with_inputs h left
  | packet p left hp hin heff => exact inv_of_packetEffect (inv_with_inputs h left) heff
  | reset left hin ht =>
    rw [ht]
    exact inv_applyReset _
  | sendFailed left hp ht =>
    rw [ht]
    exact inv_respond (inv_with_pending (inv_with_inputs h left) (by simp)) _ _
  | sendDone n left hp hn hin ht =>
    have hsent : Inv { s with inputs := left, phase := .sent } :=
      inv_with_phase (inv_with_inputs h left) (h.pendingPhase hp) rfl
    rw [ht]
    exact inv_respond (inv_with_pending hsent (by simp)) _ _

end Sys2Proof.Proofs
end

section
/-! PROOFS. What each step leaves unchanged of the configuration inputs, CAP and STATE
(spec/10_state.md R24, R25, R30): O46, O47 and O48. -/

namespace Sys2Proof.Proofs

open Sys2Proof.Machine Sys2Proof.Safety

theorem packetEffect_config {p : List Byte} {s t : State} (heff : PacketEffect p s t) :
    t.ipId = s.ipId ∧ t.ifh = s.ifh := by
  cases heff with
  | answered st result ht => simp [ht]
  | init c hdec hphase hlegal ht => simp [ht]
  | buildHeader sm dm si di sp dp c m hdec hphase hlen hcap hwrite ht => simp [ht]
  | send payload c m dst data hdec hphase hcap hfit hwrite hdst hdata ht => simp [ht]

/-- Settles O46: no effect of a step touches IP_ID or IFH. -/
theorem configurationInputsConstant : Obligations.ConfigurationInputsConstant := by
  intro s t hstep
  cases stepEffect_of_step hstep with
  | inputs left ht => simp [ht]
  | packet p left hp hin heff =>
    have hconfig := packetEffect_config heff
    exact hconfig
  | reset left hin ht => simp [ht]
  | sendFailed left hp ht => simp [ht]
  | sendDone n left hp hn hin ht => simp [ht]

/-- Outside UNINIT no packet changes CAP: INIT is not accepted there (R25; spec/42_builder.md R181). -/
theorem packetEffect_cap {p : List Byte} {s t : State} (heff : PacketEffect p s t)
    (hinit : s.phase ≠ .uninit) : t.cap = s.cap := by
  cases heff with
  | answered st result ht => simp [ht]
  | init c hdec hphase hlegal ht => exact absurd hphase hinit
  | buildHeader sm dm si di sp dp c m hdec hphase hlen hcap hwrite ht => simp [ht]
  | send payload c m dst data hdec hphase hcap hfit hwrite hdst hdata ht => simp [ht]

/-- Settles O47: CAP set means INIT has been accepted, and only a reset leads back to UNINIT. -/
theorem capacityFixedOnceSet : Obligations.CapacityFixedOnceSet := by
  intro s t c h hcap hstep
  have hinit : s.phase ≠ .uninit := fun hu => by
    rw [h.capacity.mp hu] at hcap
    cases hcap
  cases stepEffect_of_step hstep with
  | inputs left ht => exact .inl (by simp [ht, hcap])
  | packet p left hp hin heff => exact .inl ((packetEffect_cap heff hinit).trans hcap)
  | reset left hin ht => exact .inr (by simp [ht, hin])
  | sendFailed left hp ht => exact .inl (by simp [ht, hcap])
  | sendDone n left hp hn hin ht => exact .inl (by simp [ht, hcap])

/-- Where a packet changes STATE it is INIT in UNINIT or BUILD_HEADER outside it (R24). -/
theorem packetEffect_phase {p : List Byte} {s t : State} (heff : PacketEffect p s t)
    (hne : t.phase ≠ s.phase) :
    (s.phase = .uninit ∧ t.phase = .ready ∧ ∃ c, decode p = .ok (.init c)) ∨
    (s.phase ≠ .uninit ∧ t.phase = .headerBuilt ∧
      ∃ sm dm si di sp dp, decode p = .ok (.buildHeader sm dm si di sp dp)) := by
  cases heff with
  | answered st result ht => exact absurd (by simp [ht]) hne
  | init c hdec hphase hlegal ht => exact .inl ⟨hphase, by simp [ht], c, hdec⟩
  | buildHeader sm dm si di sp dp c m hdec hphase hlen hcap hwrite ht =>
    exact .inr ⟨hphase, by simp [ht], sm, dm, si, di, sp, dp, hdec⟩
  | send payload c m dst data hdec hphase hcap hfit hwrite hdst hdata ht =>
    exact absurd (by simp [ht]) hne

/-- Settles O48: of the effects of a step, only INIT, BUILD_HEADER, a phase B with a count and reset
set STATE. -/
theorem stateTransitions : Obligations.StateTransitions := by
  intro s t hstep hne
  cases stepEffect_of_step hstep with
  | inputs left ht => exact absurd (by simp [ht]) hne
  | packet p left hp hin heff =>
    obtain ⟨hs, ht, c, hdec⟩ | ⟨hs, ht, sm, dm, si, di, sp, dp, hdec⟩ := packetEffect_phase heff hne
    · exact .inl ⟨hs, ht, hp, p, left, c, hin, hdec⟩
    · exact .inr (.inl ⟨hs, ht, hp, p, left, sm, dm, si, di, sp, dp, hin, hdec⟩)
  | reset left hin ht => exact .inr (.inr (.inr ⟨by simp [ht], left, hin⟩))
  | sendFailed left hp ht => exact absurd (by simp [ht]) hne
  | sendDone n left hp hn hin ht =>
    exact .inr (.inr (.inl ⟨by simp [ht], hp, n, left, hn, hin⟩))

end Sys2Proof.Proofs
end

section
/-! PROOFS. A header with its checksum stored verifies (spec/41_checksum.md R162 to R165, R170). -/

namespace Sys2Proof.Proofs

open Sys2Proof.Machine

/-! ### What the fold keeps -/

/-- What a pass keeps, the fold keeps (R162). -/
theorem onesFold_keeps {α : Type} {f : Nat → α} (hpass : ∀ t, f (t % 65536 + t / 65536) = f t)
    (t : Nat) : f (onesFold t) = f t := by
  induction t using Nat.strong_induction_on with
  | _ t ih =>
    by_cases hsmall : t < 65536
    · rw [onesFold_small hsmall]
    · have hless : t % 65536 + t / 65536 < t := by omega
      rw [onesFold_firstPass, ih _ hless, hpass]

/-- The fold is the sum modulo 0xFFFF, the end-around carry (R170). -/
theorem onesFold_mod (t : Nat) : onesFold t % 0xFFFF = t % 0xFFFF :=
  onesFold_keeps (f := (· % 0xFFFF)) (fun t => by omega) t

/-- The fold is zero only for zero (R170). -/
theorem onesFold_eq_zero_iff (t : Nat) : onesFold t = 0 ↔ t = 0 :=
  iff_of_eq (onesFold_keeps (f := (· = 0)) (fun t => propext (by omega)) t)

/-- Of the two representatives of zero modulo 0xFFFF, a sum that is not zero folds to 0xFFFF (R170). -/
theorem onesFold_eq_ffff {t : Nat} (hne : t ≠ 0) (hmod : t % 0xFFFF = 0) : onesFold t = 0xFFFF := by
  have hlt := onesFold_lt t
  have hfold := onesFold_mod t
  have hzero := onesFold_eq_zero_iff t
  omega

/-- A sum and the complement of its fold together fold to 0xFFFF (R164, R165). -/
theorem onesFold_complement_add (t : Nat) : onesFold (0xFFFF - onesFold t + t) = 0xFFFF := by
  have hlt := onesFold_lt t
  have hfold := onesFold_mod t
  have hzero := onesFold_eq_zero_iff t
  exact onesFold_eq_ffff (by omega) (by omega)

/-! ### The stored checksum word -/

/-- A 16-bit value read back from its two octets (spec/40_codec.md R131, R132, R145). -/
theorem decodeBe_encodeBe_two (v : BitVec 16) : decodeBe (encodeBe 2 v) = v.toNat := by
  have hv := v.isLt
  have hoctets : encodeBe 2 v = [BitVec.ofNat 8 (v.toNat / 256), BitVec.ofNat 8 v.toNat] := by
    simp [encodeBe, List.range_succ, Nat.shiftRight_eq_div_pow]
  rw [hoctets, decodeBe_two, BitVec.toNat_ofNat, BitVec.toNat_ofNat]
  omega

theorem complement16_toNat (v : Nat) : (complement16 v).toNat = 0xFFFF - v := by
  rw [complement16, BitVec.toNat_ofNat]
  omega

/-- A word replaced stands in the sum beside the other words. -/
theorem sum_set_eq_add {ws : List Nat} {n : Nat} (hn : n < ws.length) (v : Nat) :
    (ws.set n v).sum = v + (ws.eraseIdx n).sum := by
  rw [List.sum_set, if_pos hn, List.eraseIdx_eq_take_drop_succ, List.sum_append]
  omega

theorem onesSum_withChecksumWord (c : Octets 2) (h : Octets 20) :
    onesSum (withChecksumWord c h) = onesFold (decodeBe c.val + ((ipWords h).eraseIdx 5).sum) := by
  rw [onesSum, accumulate_ipWords, ipWords_withChecksumWord, sum_set_eq_add (by simp)]

theorem ipChecksum_toNat (h : Octets 20) :
    (ipChecksum h).toNat = 0xFFFF - onesFold ((ipWords h).eraseIdx 5).sum := by
  have hzero : decodeBe [0x00, 0x00] = 0 := rfl
  rw [ipChecksum, complement16_toNat, onesSum_withChecksumWord, hzero, Nat.zero_add]

/-- The header as it is sent, its checksum stored (spec/42_builder.md R193). -/
def withChecksum (h : Octets 20) : Octets 20 :=
  withChecksumWord ⟨encodeBe 2 (ipChecksum h), encodeBe_length 2 _⟩ h

theorem onesSum_withChecksum (h : Octets 20) : onesSum (withChecksum h) = 0xFFFF := by
  rw [withChecksum, onesSum_withChecksumWord, decodeBe_encodeBe_two, ipChecksum_toNat]
  exact onesFold_complement_add _

/-- The header sent verifies (R165). -/
theorem ipVerify_withChecksum (h : Octets 20) : ipVerify (withChecksum h) = 0 := by
  rw [ipVerify, onesSum_withChecksum]
  rfl

end Sys2Proof.Proofs
end

section
/-! PROOFS. The finished frame in FB, in SENT and while a SEND is pending (spec/10_state.md R36 (d);
spec/20_memory.md R63; spec/42_builder.md R192 to R196): O44. -/

namespace Sys2Proof.Proofs

open Sys2Proof.Machine Sys2Proof.Safety

/-! ### The fields SEND phase A leaves in FB -/

/-- A block of FB reads as itself. -/
theorem readOctets_block {bytes : List Byte} {a n : Nat} (X b Y : List Byte)
    (hbytes : bytes = X ++ b ++ Y) (hX : X.length = a) (hb : b.length = n) :
    readOctets (cellsAt 0 bytes) a n = some b := by
  rw [hbytes, readOctets_cellsAt (by simp only [List.length_append]; omega), drop_take_block hX hb]

/-- The total length field (spec/42_builder.md R192). -/
theorem readOctets_totalLength {bytes payload : List Byte} (csum : BitVec 16)
    (h42 : 42 ≤ bytes.length) :
    readOctets (cellsAt 0 (finishedOctets bytes payload csum)) 16 2
      = some (encodeBe 2 (BitVec.ofNat 16 (28 + payload.length))) := by
  refine readOctets_block (bytes.take 16) _
    ((bytes.drop 18).take 6 ++ encodeBe 2 csum ++ (bytes.drop 26).take 12
      ++ encodeBe 2 (BitVec.ofNat 16 (8 + payload.length)) ++ [0x00, 0x00]
      ++ payload ++ bytes.drop (42 + payload.length)) ?_ ?_ (encodeBe_length 2 _)
  · simp only [finishedOctets, List.append_assoc]
  · rw [List.length_take]
    omega

/-- The UDP length field and, behind it, the UDP checksum sentinel (spec/42_builder.md R194, R195). -/
theorem readOctets_udpLength_sentinel {bytes payload : List Byte} (csum : BitVec 16)
    (h42 : 42 ≤ bytes.length) :
    readOctets (cellsAt 0 (finishedOctets bytes payload csum)) 38 4
      = some (encodeBe 2 (BitVec.ofNat 16 (8 + payload.length)) ++ [0x00, 0x00]) := by
  refine readOctets_block
    (bytes.take 16 ++ encodeBe 2 (BitVec.ofNat 16 (28 + payload.length)) ++ (bytes.drop 18).take 6
      ++ encodeBe 2 csum ++ (bytes.drop 26).take 12) _
    (payload ++ bytes.drop (42 + payload.length)) ?_ ?_ ?_
  · simp only [finishedOctets, List.append_assoc]
  · simp only [List.length_append, List.length_take, List.length_drop, encodeBe_length]
    omega
  · rw [List.length_append, encodeBe_length]
    rfl

/-- The header the checksum is computed over, with a checksum word in place of its zeros
(spec/42_builder.md R193). -/
theorem withChecksumWord_of_headerToSum {bytes : List Byte} {l : Nat} {hdr : Octets 20}
    (h42 : 42 ≤ bytes.length) (hhdr : hdr.val = headerToSum bytes l) (w : Octets 2) :
    (withChecksumWord w hdr).val
      = (bytes.drop 14).take 2 ++ encodeBe 2 (BitVec.ofNat 16 (28 + l)) ++ (bytes.drop 18).take 6
        ++ w.val ++ (bytes.drop 26).take 8 := by
  have hfront : ((bytes.drop 14).take 2 ++ encodeBe 2 (BitVec.ofNat 16 (28 + l))
      ++ (bytes.drop 18).take 6).length = 10 := by
    simp only [List.length_append, List.length_take, List.length_drop, encodeBe_length]
    omega
  have hzeros : ([0x00, 0x00] : List Byte).length = 2 := rfl
  rw [withChecksumWord_val, hhdr, headerToSum,
    List.drop_left' (by rw [List.length_append, hfront, hzeros]), List.append_assoc _ [0x00, 0x00],
    List.take_left' hfront]

/-- The IPv4 header, its checksum word stored (spec/42_builder.md R193). -/
theorem readOctets_header {bytes payload : List Byte} {hdr : Octets 20} (h42 : 42 ≤ bytes.length)
    (hhdr : hdr.val = headerToSum bytes payload.length) (csum : BitVec 16) :
    readOctets (cellsAt 0 (finishedOctets bytes payload csum)) 14 20
      = some (withChecksumWord ⟨encodeBe 2 csum, encodeBe_length 2 csum⟩ hdr).val := by
  refine readOctets_block (bytes.take 14) _
    ((bytes.drop 34).take 4 ++ encodeBe 2 (BitVec.ofNat 16 (8 + payload.length)) ++ [0x00, 0x00]
      ++ payload ++ bytes.drop (42 + payload.length)) ?_ ?_ (withChecksumWord _ hdr).property
  · have h16 : bytes.take 16 = bytes.take 14 ++ (bytes.drop 14).take 2 :=
      List.take_add (i := 14) (j := 2)
    have h26 : (bytes.drop 26).take 12 = (bytes.drop 26).take 8 ++ (bytes.drop 34).take 4 := by
      rw [List.take_add (i := 8) (j := 4), List.drop_drop]
    rw [withChecksumWord_of_headerToSum h42 hhdr, finishedOctets, h16, h26]
    simp only [List.append_assoc]
  · rw [List.length_take]
    omega

/-! ### SEND phase A -/

/-- What SEND phase A leaves in FB is a finished header (spec/10_state.md R36 (d)). -/
theorem finishedHeader_of_finishedOctets {s : State} {bytes payload : List Byte} {hdr : Octets 20}
    (hcap : s.cap = some bytes.length) (hfit : 42 + payload.length ≤ bytes.length)
    (hhdr : hdr.val = headerToSum bytes payload.length)
    (hfb : s.fb = cellsAt 0 (finishedOctets bytes payload (ipChecksum hdr))) : FinishedHeader s := by
  have h42 : 42 ≤ bytes.length := by omega
  refine ⟨payload.length, bytes.length, withChecksum hdr, hcap, hfit, ?_, ?_,
    memRead_ok hcap (by omega) ?_, ipVerify_withChecksum hdr⟩
  all_goals rw [hfb]
  · exact readOctets_totalLength _ h42
  · exact readOctets_udpLength_sentinel _ h42
  · exact readOctets_header h42 hhdr _

/-- SEND phase A leaves a finished header in FB (spec/42_builder.md R191 to R195). -/
theorem finishedHeader_finalizeFrame {s : State} (h : Inv s) (hphase : headerExists s.phase = true)
    {payload : List Byte} {c : Nat} {m : Memory} (hcap : s.cap = some c)
    (hfit : 42 + payload.length ≤ c)
    (hwrite : finalizeFrame payload s = .ok { s with fb := m }) :
    FinishedHeader { s with fb := m } := by
  obtain ⟨bytes, hbytes, hfb, -, hmax⟩ := h.octets hphase
  obtain rfl : c = bytes.length := Option.some.inj (hcap.symm.trans hbytes)
  rw [finalizeFrame_ok hcap hfb hfit hmax] at hwrite
  obtain rfl := congrArg State.fb (Except.ok.inj hwrite)
  exact finishedHeader_of_finishedOctets hcap hfit rfl rfl

/-- SEND hands over FB's octets as they are (spec/42_builder.md R196; spec/20_memory.md R63). -/
theorem lastRequestMatches_issueTxRequest {s : State} {dst data : List Byte} {l : Nat}
    (hdst : readOctets s.fb 0 6 = some dst) (hdata : readOctets s.fb 0 (42 + l) = some data) :
    LastRequestMatches (issueTxRequest dst data (42 + l) s) :=
  ⟨s.txRequests, ⟨s.ifh, dst, data, 42 + l⟩, rfl, rfl, (readOctets_length hdata).symm,
    Nat.le_add_right 42 l, hdst, hdata⟩

/-! ### Every step -/

/-- A finished header is a matter of CAP and FB alone. -/
theorem finishedHeader_of_same_buffer {s t : State} (hcap : t.cap = s.cap) (hfb : t.fb = s.fb)
    (h : FinishedHeader s) : FinishedHeader t := by
  cases s
  cases t
  subst hcap hfb
  exact h

/-- With no request outstanding the frame matters in SENT only (spec/70_reset_and_hazards.md R285). -/
theorem frameInv_of_idle {s : State} (h : Inv s) (hp : s.pending = false)
    (hsent : s.phase = .sent → FinishedHeader s) : FrameInv s where
  inv := h
  finished := fun hor => hsent (hor.resolve_right (by simp [hp]))
  handed := fun ht => absurd (hp.symm.trans ht) (by decide)

/-- A packet is run with no request outstanding; of the builder's commands only SEND leads into a state
the frame matters in, and it finishes the frame. -/
theorem frameInv_of_packetEffect {p : List Byte} {s t : State} (h : FrameInv s)
    (hp : s.pending = false) (heff : PacketEffect p s t) : FrameInv t := by
  have hinv := inv_of_packetEffect h.inv heff
  cases heff with
  | answered st result ht =>
    subst ht
    exact frameInv_of_idle hinv hp fun hsent =>
      finishedHeader_of_same_buffer rfl rfl (h.finished (.inl hsent))
  | init c hdec hphase hlegal ht =>
    subst ht
    exact frameInv_of_idle hinv hp nofun
  | buildHeader sm dm si di sp dp c m hdec hphase hlen hcap hwrite ht =>
    subst ht
    exact frameInv_of_idle hinv hp nofun
  | send payload c m dst data hdec hphase hcap hfit hwrite hdst hdata ht =>
    subst ht
    exact
      { inv := hinv
        finished := fun _ => finishedHeader_of_same_buffer rfl rfl
          (finishedHeader_finalizeFrame h.inv hphase hcap hfit hwrite)
        handed := fun _ => lastRequestMatches_issueTxRequest hdst hdata }

/-- The inputs presented do not matter to the finished frame. -/
theorem frameInv_with_inputs {s : State} (h : FrameInv s) (left : List Input) :
    FrameInv { s with inputs := left } where
  inv := inv_with_inputs h.inv left
  finished := fun hor => finishedHeader_of_same_buffer rfl rfl (h.finished hor)
  handed := h.handed

/-- Settles O44: SEND finishes the frame and hands it over; until its answer comes no step but a reset
touches FB, and the answer leaves FB as it is, so the frame finished while PENDING = 1 is the one found
in SENT. -/
theorem stepKeepsFrameInvariant : Obligations.StepKeepsFrameInvariant := by
  intro s t h hstep
  have hinv := stepKeepsInvariant s t h.inv hstep
  cases stepEffect_of_step hstep with
  | inputs left ht =>
    rw [ht]
    exact frameInv_with_inputs h left
  | packet p left hp hin heff =>
    exact frameInv_of_packetEffect (frameInv_with_inputs h left) hp heff
  | reset left hin ht =>
    subst ht
    exact frameInv_of_idle hinv rfl nofun
  | sendFailed left hp ht =>
    subst ht
    exact frameInv_of_idle hinv rfl fun _ =>
      finishedHeader_of_same_buffer rfl rfl (h.finished (.inr hp))
  | sendDone n left hp hn hin ht =>
    subst ht
    exact frameInv_of_idle hinv rfl fun _ =>
      finishedHeader_of_same_buffer rfl rfl (h.finished (.inr hp))

end Sys2Proof.Proofs
end

section
/-! PROOFS. Value and octets of `encode_be` and `decode_be` determine each other (spec/40_codec.md R131,
R132, R145, R146). -/

namespace Sys2Proof.Proofs

open Sys2Proof.Machine

@[simp] theorem octets_length {n : Nat} (b : Octets n) : b.val.length = n := b.property

/-- What an octet more adds fits that octet (R131). -/
theorem toNat_div_octet_lt {n : Nat} (v : BitVec (8 * (n + 1))) : v.toNat / 256 < 2 ^ (8 * n) :=
  Nat.div_lt_of_lt_mul (lt_of_lt_of_eq v.isLt (by rw [Nat.mul_succ, Nat.pow_add, Nat.mul_comm]))

/-- The last octet is the value's least significant one, and the octets before it are the rest's
(R131). -/
theorem encodeBe_succ (n : Nat) (v : BitVec (8 * (n + 1))) :
    encodeBe (n + 1) v
      = encodeBe n (BitVec.ofNat (8 * n) (v.toNat / 256)) ++ [BitVec.ofNat 8 v.toNat] := by
  have hlast : 8 * (n + 1) - 8 - 8 * n = 0 := by omega
  have hrest : ∀ i ∈ List.range n, BitVec.ofNat 8 (v.toNat >>> (8 * (n + 1) - 8 - 8 * i))
      = BitVec.ofNat 8 ((v.toNat / 256) >>> (8 * n - 8 - 8 * i)) := by
    intro i hi
    have hin : i < n := List.mem_range.mp hi
    have hshift : 8 * (n + 1) - 8 - 8 * i = 8 + (8 * n - 8 - 8 * i) := by omega
    rw [hshift, Nat.shiftRight_add, Nat.shiftRight_eq_div_pow v.toNat 8]
  rw [encodeBe, List.range_succ, List.map_append, List.map_singleton, hlast, Nat.shiftRight_zero,
    List.map_congr_left hrest, encodeBe, BitVec.toNat_ofNat, Nat.mod_eq_of_lt (toNat_div_octet_lt v)]

/-- Round trip, value first (R145). -/
theorem decodeBe_encodeBe (n : Nat) (v : BitVec (8 * n)) : decodeBe (encodeBe n v) = v.toNat := by
  induction n with
  | zero =>
    have hv := v.isLt
    have hnil : encodeBe 0 v = [] := rfl
    rw [hnil, decodeBe_nil]
    omega
  | succ n ih =>
    rw [encodeBe_succ, decodeBe_concat, ih, BitVec.toNat_ofNat, BitVec.toNat_ofNat,
      Nat.mod_eq_of_lt (toNat_div_octet_lt v)]
    omega

/-- Octets of one number with one value are the same octets (R132). -/
theorem eq_of_decodeBe_eq {b c : List Byte} (hlen : b.length = c.length)
    (hval : decodeBe b = decodeBe c) : b = c := by
  induction b using List.reverseRecOn generalizing c with
  | nil => exact (List.eq_nil_of_length_eq_zero hlen.symm).symm
  | append_singleton b o ih =>
    obtain rfl | ⟨c, q, rfl⟩ := List.eq_nil_or_concat' c
    · simp at hlen
    · have ho := o.isLt
      have hq := q.isLt
      rw [decodeBe_concat, decodeBe_concat] at hval
      rw [ih (by simpa using hlen) (by omega), BitVec.eq_of_toNat_eq (x := o) (y := q) (by omega)]

/-- Round trip, octets first (R146). -/
theorem encodeBe_beWord (n : Nat) (b : Octets n) : encodeBe n (beWord n b) = b.val :=
  eq_of_decodeBe_eq (by rw [encodeBe_length, b.property])
    (by rw [decodeBe_encodeBe, beWord_toNat])

/-- Round trip, value first, as a word of its width (R145). -/
theorem beWord_encodeBe (n : Nat) (v : BitVec (8 * n)) :
    beWord n ⟨encodeBe n v, encodeBe_length n v⟩ = v :=
  BitVec.eq_of_toNat_eq (by rw [beWord_toNat, decodeBe_encodeBe])

end Sys2Proof.Proofs
end

section
/-! PROOFS. The decoder and the encoder are inverse to each other (spec/30_encoding.md R101 to R105): O3
and O4. -/

namespace Sys2Proof.Proofs

open Sys2Proof.Machine

/-! ### Operands of a fixed number of octets -/

/-- A fixed-size operand is read where exactly its octets are there (R105). -/
theorem map_exactly_eq_some {α : Type} {n : Nat} {d : List Byte} {f : Octets n → α} {a : α} :
    (exactly n d).map f = some a ↔ ∃ b : Octets n, b.val = d ∧ f b = a := by
  simp only [Option.map_eq_some_iff, exactly_eq_some, eq_comm (a := d)]

/-- A word operand is read back from its octets (R101). -/
theorem map_exactly_encodeBe {α : Type} (n : Nat) (v : BitVec (8 * n)) (f : BitVec (8 * n) → α) :
    ((exactly n (encodeBe n v)).map fun b => f (beWord n b)) = some (f v) :=
  map_exactly_eq_some.mpr ⟨⟨_, encodeBe_length n v⟩, rfl, congrArg f (beWord_encodeBe n v)⟩

/-! ### Well-formed commands (R101, R102) -/

theorem wellFormed_buildHeader {sm dm si di : List Byte} {sp dp : BitVec 16} :
    (Instr.buildHeader sm dm si di sp dp).WellFormed = true ↔
      sm.length < 2 ^ 8 ∧ dm.length < 2 ^ 8 ∧ si.length < 2 ^ 8 ∧ di.length < 2 ^ 8 := by
  simp only [Instr.WellFormed, Bool.and_eq_true, decide_eq_true_eq, and_assoc]

theorem wellFormed_send {payload : List Byte} :
    (Instr.send payload).WellFormed = true ↔ payload.length < 2 ^ 32 := decide_eq_true_iff

/-! ### Formats B and S -/

/-- A length-prefixed field is read exactly where its length octet and its octets stand first
(R102, R105). -/
theorem lengthPrefixed_eq_some {d f r : List Byte} :
    lengthPrefixed d = some (f, r) ↔ f.length < 2 ^ 8 ∧ encodePrefixed f ++ r = d := by
  constructor
  · intro h
    cases d with
    | nil => cases h
    | cons n rest =>
      have hn := n.isLt
      simp only [lengthPrefixed] at h
      split at h
      · next hle =>
        cases h
        have hlen : (rest.take n.toNat).length = n.toNat := List.length_take_of_le hle
        refine ⟨by rw [hlen]; exact hn, ?_⟩
        rw [encodePrefixed, hlen, BitVec.ofNat_toNat, BitVec.setWidth_eq, List.cons_append,
          List.take_append_drop]
      · cases h
  · rintro ⟨hlt, rfl⟩
    have hlen : (BitVec.ofNat 8 f.length).toNat = f.length := by
      rw [BitVec.toNat_ofNat, Nat.mod_eq_of_lt hlt]
    rw [encodePrefixed, List.cons_append, lengthPrefixed, hlen, if_pos (by simp), List.take_left,
      List.drop_left]

/-- Format B is read exactly where the octets are those of its command (R102, R105). -/
theorem decodeBuild_eq_some {d : List Byte} {i : Instr} :
    decodeBuild d = some i ↔
      i.opcode = .buildHeader ∧ i.WellFormed = true ∧ encodeOperands i = d := by
  constructor
  · intro h
    unfold decodeBuild at h
    split at h
    · cases h
    next sm d1 h1 =>
    split at h
    · cases h
    next dm d2 h2 =>
    split at h
    · cases h
    next si d3 h3 =>
    split at h
    · cases h
    next di d4 h4 =>
    split at h
    · next p0 p1 q0 q1 =>
      cases h
      obtain ⟨hsm, rfl⟩ := lengthPrefixed_eq_some.mp h1
      obtain ⟨hdm, rfl⟩ := lengthPrefixed_eq_some.mp h2
      obtain ⟨hsi, rfl⟩ := lengthPrefixed_eq_some.mp h3
      obtain ⟨hdi, rfl⟩ := lengthPrefixed_eq_some.mp h4
      refine ⟨rfl, wellFormed_buildHeader.mpr ⟨hsm, hdm, hsi, hdi⟩, ?_⟩
      simp only [encodeOperands, encodeBe_beWord, List.append_assoc, List.cons_append,
        List.nil_append]
    · cases h
  · rintro ⟨hop, hwf, rfl⟩
    cases i with
    | buildHeader sm dm si di sp dp =>
      obtain ⟨hsm, hdm, hsi, hdi⟩ := wellFormed_buildHeader.mp hwf
      have hread : ∀ {f : List Byte} (r : List Byte), f.length < 2 ^ 8 →
          lengthPrefixed (encodePrefixed f ++ r) = some (f, r) := fun r hf =>
        lengthPrefixed_eq_some.mpr ⟨hf, rfl⟩
      obtain ⟨p0, p1, hp⟩ := exists_encodeBe_two sp
      obtain ⟨q0, q1, hq⟩ := exists_encodeBe_two dp
      have hsp := beWord_encodeBe 2 sp
      have hdp := beWord_encodeBe 2 dp
      simp only [hp, hq] at hsp hdp
      simp only [decodeBuild, encodeOperands, List.append_assoc, hread _ hsm, hread _ hdm,
        hread _ hsi, hread _ hdi, hp, hq, List.cons_append, List.nil_append, hsp, hdp]
    | _ => cases hop

/-- Format S is read exactly where the octets are those of its command (R102, R105). -/
theorem decodeSend_eq_some {d : List Byte} {i : Instr} :
    decodeSend d = some i ↔ i.opcode = .send ∧ i.WellFormed = true ∧ encodeOperands i = d := by
  constructor
  · intro h
    unfold decodeSend at h
    split at h
    · next l0 l1 l2 l3 payload =>
      split at h
      · next hlen =>
        cases h
        have hlt : payload.length < 2 ^ 32 :=
          hlen ▸ lt_of_lt_of_eq (decodeBe_lt [l0, l1, l2, l3]) (by norm_num)
        have hword : BitVec.ofNat 32 payload.length = beWord 4 ⟨[l0, l1, l2, l3], rfl⟩ := by
          rw [hlen, beWord]
        refine ⟨rfl, wellFormed_send.mpr hlt, ?_⟩
        rw [encodeOperands, hword, encodeBe_beWord 4 ⟨[l0, l1, l2, l3], rfl⟩]
        rfl
      · cases h
    · cases h
  · rintro ⟨hop, hwf, rfl⟩
    cases i with
    | send payload =>
      have hlt : payload.length < 2 ^ 32 := wellFormed_send.mp hwf
      have hlen := decodeBe_encodeBe 4 (BitVec.ofNat 32 payload.length)
      rw [BitVec.toNat_ofNat, Nat.mod_eq_of_lt hlt] at hlen
      obtain ⟨l0, l1, l2, l3, hl⟩ : ∃ l0 l1 l2 l3,
          encodeBe 4 (BitVec.ofNat 32 payload.length) = [l0, l1, l2, l3] := ⟨_, _, _, _, rfl⟩
      rw [hl] at hlen
      simp only [encodeOperands, hl, List.cons_append, List.nil_append, decodeSend, hlen, if_true]
    | _ => cases hop

/-! ### Packets -/

/-- The operands of an opcode are read exactly where they are those of a well-formed command with that
opcode (R101, R102, R105). -/
theorem decodeOperands_eq_some {op : Opcode} {d : List Byte} {i : Instr} :
    decodeOperands op d = some i ↔
      i.opcode = op ∧ i.WellFormed = true ∧ encodeOperands i = d := by
  constructor
  · intro h
    cases op with
    | encBe16 | encBe32 | encBe64 | encLe16 | encLe32 | encLe64 | init =>
      obtain ⟨b, rfl, rfl⟩ := map_exactly_eq_some.mp h
      exact ⟨rfl, rfl, encodeBe_beWord _ b⟩
    | decBe16 | decBe32 | decBe64 | decLe16 | decLe32 | decLe64 | ipcsum =>
      obtain ⟨b, rfl, rfl⟩ := map_exactly_eq_some.mp h
      exact ⟨rfl, rfl, rfl⟩
    | buildHeader => exact decodeBuild_eq_some.mp h
    | send => exact decodeSend_eq_some.mp h
  · rintro ⟨rfl, hwf, rfl⟩
    cases i with
    | encBe16 v => exact map_exactly_encodeBe 2 v Instr.encBe16
    | encBe32 v => exact map_exactly_encodeBe 4 v Instr.encBe32
    | encBe64 v => exact map_exactly_encodeBe 8 v Instr.encBe64
    | encLe16 v => exact map_exactly_encodeBe 2 v Instr.encLe16
    | encLe32 v => exact map_exactly_encodeBe 4 v Instr.encLe32
    | encLe64 v => exact map_exactly_encodeBe 8 v Instr.encLe64
    | init v => exact map_exactly_encodeBe 4 v Instr.init
    | decBe16 b | decBe32 b | decBe64 b | decLe16 b | decLe32 b | decLe64 b | ipcsum b =>
      exact map_exactly_eq_some.mpr ⟨b, rfl, rfl⟩
    | buildHeader sm dm si di sp dp => exact decodeBuild_eq_some.mpr ⟨rfl, hwf, rfl⟩
    | send payload => exact decodeSend_eq_some.mpr ⟨rfl, hwf, rfl⟩

/-- A packet with an opcode octet decodes where the octet is known and its operands are there (R105). -/
theorem decode_cons_eq_ok {o : Byte} {d : List Byte} {i : Instr} :
    decode (o :: d) = .ok i ↔ ∃ op, opcodeOf o = some op ∧ decodeOperands op d = some i := by
  simp only [decode]
  cases opcodeOf o with
  | none => simp
  | some op => cases hd : decodeOperands op d <;> simp [hd]

/-- A packet decodes to a command exactly where the command is well formed and the packet is its own
(R101 to R105). -/
theorem decode_eq_ok {p : List Byte} {i : Instr} :
    decode p = .ok i ↔ encode i = p ∧ i.WellFormed = true := by
  cases p with
  | nil => simp [decode, encode]
  | cons o d =>
    simp only [decode_cons_eq_ok, decodeOperands_eq_some, encode, List.cons.injEq]
    constructor
    · rintro ⟨op, hop, rfl, hwf, hd⟩
      exact ⟨⟨opcodeByte_of_opcodeOf hop, hd⟩, hwf⟩
    · rintro ⟨⟨rfl, hd⟩, hwf⟩
      exact ⟨i.opcode, opcodeOf_opcodeByte _, rfl, hwf, hd⟩

/-- Settles O3: the packet is the command's own and the command is well formed. -/
theorem decodeOfEncode : Obligations.DecodeOfEncode := fun _ hwf => decode_eq_ok.mpr ⟨rfl, hwf⟩

/-- Settles O4: each format reads only the octets that its command's packet holds. -/
theorem encodeOfDecode : Obligations.EncodeOfDecode := fun _ _ h => decode_eq_ok.mp h

end Sys2Proof.Proofs
end

section
/-! PROOFS. Which packets are no command and how they are answered, the opcode octet and packets written
out (spec/30_encoding.md R102 to R107): O1, O2, O5 and O6. -/

namespace Sys2Proof.Proofs

open Sys2Proof.Machine

/-! ### The decoder's two errors -/

/-- Only a reserved opcode is an OpcodeError, and every one is (R105, R106). -/
theorem decode_cons_eq_opcodeError {o : Byte} {d : List Byte} :
    decode (o :: d) = .error .opcodeError ↔ opcodeOf o = none := by
  simp only [decode]
  cases opcodeOf o with
  | none => simp
  | some op => cases hd : decodeOperands op d <;> simp [hd]

/-- A FormatError is a known opcode whose operands do not fit (R105, R107). -/
theorem decode_cons_eq_formatError {o : Byte} {d : List Byte} :
    decode (o :: d) = .error .formatError ↔
      ∃ op, opcodeOf o = some op ∧ decodeOperands op d = none := by
  simp only [decode]
  cases opcodeOf o with
  | none => simp
  | some op => cases hd : decodeOperands op d <;> simp [hd]

/-- A packet that is no command is answered with the decoder's error, and nothing else changes
(spec/60_exceptions.md R248). -/
theorem step_of_decode_error {s : State} {p : List Byte} {left : List Input} {e : DecodeError}
    (hp : s.pending = false) (hin : s.inputs = .command p :: left) (hdec : decode p = .error e) :
    step s = .next (respond (decodeStatus e) [] { s with inputs := left }) := by
  rw [step_command hp hin]
  simp only [runPacket, hdec, raiseError]

/-! ### The opcode octet -/

/-- The reserved octets are those the table does not list (R104, R106). -/
theorem opcodeOf_eq_none_iff {o : Byte} :
    opcodeOf o = none ↔
      o.toNat ≤ 0x10 ∨ o.toNat = 0x14 ∨ o.toNat = 0x18 ∨ o.toNat = 0x1C ∨
        (0x21 ≤ o.toNat ∧ o.toNat ≤ 0x2F) ∨ 0x33 ≤ o.toNat := by
  have hunlisted : opcodeOf o = none ↔ ∀ r ∈ opcodeTable, r.1.toNat ≠ o.toNat := by
    simp only [opcodeOf, Option.map_eq_none_iff, List.find?_eq_none, beq_iff_eq, ← BitVec.toNat_inj,
      ne_eq]
  rw [hunlisted]
  simp only [opcodeTable, List.forall_mem_cons, List.not_mem_nil, false_implies, implies_true,
    and_true, BitVec.reduceToNat]
  omega

/-- Settles O5: the decoder looks at the opcode octet first, and the error is all the step answers. -/
theorem reservedOpcodesAnswered : Obligations.ReservedOpcodesAnswered := fun _ _ =>
  ⟨decode_cons_eq_opcodeError.trans opcodeOf_eq_none_iff,
    fun _ _ hp hin hdec => step_of_decode_error hp hin hdec⟩

/-- Settles O2: the rows of the opcode table, and the sixteen octets of the codec family. -/
theorem codecOpcodeStructure : Obligations.CodecOpcodeStructure := by
  unfold Obligations.CodecOpcodeStructure
  decide

/-- Settles O1: the decoder run on each packet. -/
theorem specPacketsDecode : Obligations.SpecPacketsDecode := by
  unfold Obligations.SpecPacketsDecode
  decide

/-! ### The length a packet calls for -/

theorem isSome_map_exactly {α : Type} {n : Nat} {d : List Byte} {f : Octets n → α} :
    ((exactly n d).map f).isSome = true ↔ d.length = n := by
  rw [Option.isSome_map, exactly]
  split <;> simp [*]

/-- Where the length-prefixed field that begins at octet `k` of `d` ends, an octet not there counting
as zero (R102). -/
def fieldEnd (d : List Byte) (k : Nat) : Nat := k + 1 + (d.getD k 0).toNat

theorem lt_fieldEnd (d : List Byte) (k : Nat) : k < fieldEnd d k := by
  unfold fieldEnd
  omega

/-- A length-prefixed field is read where it ends within the octets, and the rest begins there (R105). -/
theorem lengthPrefixed_drop (d : List Byte) (k : Nat) :
    (d.length < fieldEnd d k ∧ lengthPrefixed (d.drop k) = none) ∨
    (fieldEnd d k ≤ d.length ∧ ∃ f, lengthPrefixed (d.drop k) = some (f, d.drop (fieldEnd d k))) := by
  by_cases hk : k < d.length
  · have hget : d.getD k 0 = d[k] := by simp [hk]
    rw [List.drop_eq_getElem_cons hk, fieldEnd, hget, lengthPrefixed, List.length_drop]
    by_cases hfit : k + 1 + d[k].toNat ≤ d.length
    · exact .inr ⟨hfit, _, by rw [if_pos (by omega), List.drop_drop]⟩
    · exact .inl ⟨by omega, if_neg (by omega)⟩
  · rw [List.drop_of_length_le (by omega), fieldEnd]
    exact .inl ⟨by omega, rfl⟩

/-- Format B fits exactly where the four fields and four octets of ports are all there is (R105). -/
theorem isSome_decodeBuild {d : List Byte} :
    (decodeBuild d).isSome = true ↔
      d.length = fieldEnd d (fieldEnd d (fieldEnd d (fieldEnd d 0))) + 4 := by
  have hk2 := lt_fieldEnd d (fieldEnd d 0)
  have hk3 := lt_fieldEnd d (fieldEnd d (fieldEnd d 0))
  have hk4 := lt_fieldEnd d (fieldEnd d (fieldEnd d (fieldEnd d 0)))
  have hnone : ∀ {l : Nat}, decodeBuild d = none → d.length < l →
      ((decodeBuild d).isSome = true ↔ d.length = l) := fun hn hl =>
    iff_of_false (by simp [hn]) (by omega)
  obtain ⟨hs, e1⟩ | ⟨-, f1, e1⟩ := lengthPrefixed_drop d 0
  all_goals rw [List.drop_zero] at e1
  · exact hnone (by simp only [decodeBuild, e1]) (by omega)
  obtain ⟨hs, e2⟩ | ⟨-, f2, e2⟩ := lengthPrefixed_drop d (fieldEnd d 0)
  · exact hnone (by simp only [decodeBuild, e1, e2]) (by omega)
  obtain ⟨hs, e3⟩ | ⟨-, f3, e3⟩ := lengthPrefixed_drop d (fieldEnd d (fieldEnd d 0))
  · exact hnone (by simp only [decodeBuild, e1, e2, e3]) (by omega)
  obtain ⟨hs, e4⟩ | ⟨hfit, f4, e4⟩ :=
    lengthPrefixed_drop d (fieldEnd d (fieldEnd d (fieldEnd d 0)))
  · exact hnone (by simp only [decodeBuild, e1, e2, e3, e4]) (by omega)
  have hports := List.length_drop (l := d) (i := fieldEnd d (fieldEnd d (fieldEnd d (fieldEnd d 0))))
  simp only [decodeBuild, e1, e2, e3, e4]
  split
  · next hp =>
    rw [hp] at hports
    simp only [List.length_cons, List.length_nil] at hports
    exact iff_of_true rfl (by omega)
  · next hp =>
    refine iff_of_false (by simp) fun hl => ?_
    obtain ⟨p0, p1, q0, q1, hp'⟩ := List.length_eq_four.mp (hports.trans (by omega))
    exact hp p0 p1 q0 q1 hp'

/-- Format S fits exactly where the length field is there and announces what follows it (R105). -/
theorem isSome_decodeSend {d : List Byte} :
    (decodeSend d).isSome = true ↔
      d.length = 4 + decodeBe [d.getD 0 0, d.getD 1 0, d.getD 2 0, d.getD 3 0] := by
  unfold decodeSend
  split
  · simp only [List.getD_cons_zero, List.getD_cons_succ, List.length_cons]
    split
    · exact iff_of_true rfl (by omega)
    · exact iff_of_false (by simp) (by omega)
  · next hshort =>
    refine iff_of_false (by simp) fun hlen => ?_
    obtain ⟨l, payload, rfl, hl⟩ := exists_split (l := d) 4 (by omega)
    obtain ⟨l0, l1, l2, l3, rfl⟩ := List.length_eq_four.mp hl
    exact hshort l0 l1 l2 l3 payload rfl

/-- The packet length format B calls for, counted from the end of its four fields (R102). -/
theorem packetLength_buildHeader {o : Byte} (d : List Byte) (hop : opcodeOf o = some .buildHeader) :
    packetLength (o :: d) = 5 + fieldEnd d (fieldEnd d (fieldEnd d (fieldEnd d 0))) := by
  have hnext : ∀ {j : Nat} (k : Nat), j = fieldEnd d k + 1 →
      (o :: d).getD j 0 = d.getD (fieldEnd d k) 0 := by
    rintro _ k rfl
    exact List.getD_cons_succ
  simp only [packetLength, List.getD_cons_zero, List.getD_cons_succ, hop, Option.map_some, formatOf]
  rw [hnext 0 (by unfold fieldEnd; omega), hnext (fieldEnd d 0) (by simp only [fieldEnd]; omega),
    hnext (fieldEnd d (fieldEnd d 0)) (by simp only [fieldEnd]; omega)]
  simp only [fieldEnd]
  omega

/-- The operands of a known opcode fit exactly where the packet's length is the one its octets call for
(R102, R105). -/
theorem isSome_decodeOperands {o : Byte} {op : Opcode} {d : List Byte} (hop : opcodeOf o = some op) :
    (decodeOperands op d).isSome = true ↔ (o :: d).length = packetLength (o :: d) := by
  cases op with
  | encBe16 | encBe32 | encBe64 | encLe16 | encLe32 | encLe64 | init | decBe16 | decBe32 | decBe64
  | decLe16 | decLe32 | decLe64 | ipcsum =>
    simp only [packetLength, List.getD_cons_zero, hop, Option.map_some, formatOf, List.length_cons]
    exact isSome_map_exactly.trans Nat.succ_inj.symm
  | buildHeader =>
    rw [packetLength_buildHeader d hop, List.length_cons]
    exact isSome_decodeBuild.trans (by omega)
  | send =>
    simp only [packetLength, List.getD_cons_zero, List.getD_cons_succ, hop, Option.map_some, formatOf,
      List.length_cons]
    exact isSome_decodeSend.trans (by omega)

/-- A FormatError is the empty packet, or a known opcode with another length than its packet calls for
(R105, R107). -/
theorem decode_eq_formatError {p : List Byte} :
    decode p = .error .formatError ↔
      p = [] ∨ ((opcodeOf (p.getD 0 0)).isSome = true ∧ p.length ≠ packetLength p) := by
  cases p with
  | nil => exact iff_of_true rfl (.inl rfl)
  | cons o d =>
    rw [decode_cons_eq_formatError, List.getD_cons_zero, Option.isSome_iff_exists]
    simp only [reduceCtorEq, false_or]
    constructor
    · rintro ⟨op, hop, hd⟩
      exact ⟨⟨op, hop⟩, fun hlen => by simpa [hd] using (isSome_decodeOperands hop).mpr hlen⟩
    · rintro ⟨⟨op, hop⟩, hlen⟩
      exact ⟨op, hop, by simpa using mt (isSome_decodeOperands hop).mp hlen⟩

/-- Settles O6: the operands fit exactly where the length does, and the error is all the step answers. -/
theorem malformedPacketsAnswered : Obligations.MalformedPacketsAnswered := fun _ =>
  ⟨decode_eq_formatError, fun _ _ hp hin hdec => step_of_decode_error hp hin hdec⟩

end Sys2Proof.Proofs
end

section
/-! PROOFS. The three headers' serialise and deserialise functions are inverse to each other
(spec/30_encoding.md R85 to R87; spec/40_codec.md R145, R146): O18. -/

namespace Sys2Proof.Proofs

open Sys2Proof.Machine

/-! ### Fields of a header -/

/-- Two fields side by side are one stretch of the header. -/
theorem slice_append_slice {k i j n m : Nat} (h : Octets k) (hi : i + n ≤ k) (hj : j + m ≤ k)
    (hij : i + n = j) :
    (slice h i n hi).val ++ (slice h j m hj).val = (slice h i (n + m) (by omega)).val := by
  subst hij
  simp only [slice, List.take_add, List.drop_drop]

theorem slice_whole {k : Nat} (h : Octets k) : (slice h 0 k (by omega)).val = h.val := by
  simp only [slice, List.drop_zero, List.take_of_length_le h.property.le]

theorem octet_eq_slice {k i : Nat} (h : Octets k) (hi : i < k) :
    [octet h i hi] = (slice h i 1 hi).val := by
  have hlen : i < h.val.length := by rw [h.property]; exact hi
  simp only [slice, octet, List.drop_eq_getElem_cons hlen, List.take_succ_cons, List.take_zero]

/-! ### Write of read -/

theorem ethWrite_ethRead (h : Octets 14) : ethWrite (ethRead h) = h := by
  refine Subtype.ext ?_
  simp only [ethWrite, ethRead, encodeBe_beWord, slice_append_slice, slice_whole, Nat.reduceAdd]

theorem ipv4Write_ipv4Read (h : Octets 20) : ipv4Write (ipv4Read h) = h := by
  refine Subtype.ext ?_
  simp only [ipv4Write, ipv4Read, encodeBe_beWord, octet_eq_slice, slice_append_slice, slice_whole,
    Nat.reduceAdd]

theorem udpWrite_udpRead (h : Octets 8) : udpWrite (udpRead h) = h := by
  refine Subtype.ext ?_
  simp only [udpWrite, udpRead, encodeBe_beWord, slice_append_slice, slice_whole, Nat.reduceAdd]

/-! ### Read of write: each field stands behind the ones before it -/

theorem ethRead_ethWrite (f : EthFields) : ethRead (ethWrite f) = f := by
  simp [ethRead, ethWrite, slice, List.drop_append, List.take_of_length_le,
    List.drop_of_length_le, beWord_encodeBe]

theorem ipv4Read_ipv4Write (f : Ipv4Fields) : ipv4Read (ipv4Write f) = f := by
  simp [ipv4Read, ipv4Write, slice, octet, List.drop_append, List.take_of_length_le,
    List.drop_of_length_le, beWord_encodeBe]

theorem udpRead_udpWrite (f : UdpFields) : udpRead (udpWrite f) = f := by
  simp [udpRead, udpWrite, slice, List.drop_append, List.take_of_length_le,
    List.drop_of_length_le, beWord_encodeBe]

/-- Settles O18: a field is the block at its place, and the fields side by side are the header. -/
theorem headerSerialiseInverse : Obligations.HeaderSerialiseInverse :=
  ⟨ethRead_ethWrite, ethWrite_ethRead, ipv4Read_ipv4Write, ipv4Write_ipv4Read, udpRead_udpWrite,
    udpWrite_udpRead⟩

end Sys2Proof.Proofs
end

section
/-! PROOFS. The frame BUILD_HEADER and SEND hand over, in closed form, and its length fields
(spec/30_encoding.md R80, R84, R88; spec/42_builder.md R187, R191 to R196): O30 and O31. -/

namespace Sys2Proof.Proofs

open Sys2Proof.Machine Sys2Proof.Safety

/-! ### The headers in closed form -/

/-- The header SEND sums over a built header is the closed form with checksum 0 (R88, R193). -/
theorem headerToSum_builtHeader (ipId : BitVec 16) (p : FrameParams) (rest : List Byte) (l : Nat) :
    headerToSum (builtHeader ipId p ++ rest) l = (frameIpv4 ipId p l 0).val := by
  have hzero : encodeBe 2 0#16 = [0x00, 0x00] := by decide
  simp [headerToSum, builtHeader, frameIpv4, ipv4Write, List.drop_append, List.take_append,
    List.take_of_length_le, List.drop_of_length_le, hzero, ipTotalLength, ipHlen, udpHlen]

/-- What SEND leaves over a built header is the frame in closed form, the rest of FB behind it
(R88, R191 to R195). -/
theorem finishedOctets_builtHeader (ipId : BitVec 16) (p : FrameParams) (rest payload : List Byte) :
    finishedOctets (builtHeader ipId p ++ rest) payload
        (ipChecksum (frameIpv4 ipId p payload.length 0))
      = frame ipId p payload ++ rest.drop payload.length := by
  have hsentinel : encodeBe 2 (udpCsumValue Config.udpCsumMode) = [0x00, 0x00] := by decide
  have hrest : (builtHeader ipId p ++ rest).drop (42 + payload.length) = rest.drop payload.length := by
    rw [← List.drop_drop, List.drop_left' (builtHeader_length ipId p)]
  rw [finishedOctets, hrest]
  simp [builtHeader, frame, frameIpv4, ethWrite, ipv4Write, udpWrite, List.drop_append,
    List.take_append, List.take_of_length_le, List.drop_of_length_le, hsentinel, ipTotalLength,
    udpLength, ipHlen, udpHlen]

theorem frame_length (ipId : BitVec 16) (p : FrameParams) (payload : List Byte) :
    (frame ipId p payload).length = 42 + payload.length := by
  simp only [frame, List.length_append, octets_length]

/-- The frame opens with the destination MAC (R81). -/
theorem frame_take_six (ipId : BitVec 16) (p : FrameParams) (payload : List Byte) :
    (frame ipId p payload).take 6 = p.dstMac.val := by
  simp only [frame, ethWrite, List.append_assoc]
  exact List.take_left' p.dstMac.property

/-! ### BUILD_HEADER and SEND where they complete -/

/-- BUILD_HEADER of legal operands completes wherever a buffer exists (R184, R187, R188). -/
theorem exec_buildHeader_ok {s : State} {c : Nat} (p : FrameParams) (hp : s.pending = false)
    (hphase : s.phase ≠ .uninit) (hcap : s.cap = some c) (h42 : 42 ≤ c)
    (hout : ∀ x b, readOctet s.fb x = some b → x < c) :
    exec (.buildHeader p.srcMac.val p.dstMac.val p.srcIp.val p.dstIp.val p.srcPort p.dstPort) s
      = .next (respond .ok [] { s with
          fb := cellsAt 0 (builtHeader s.ipId p ++ List.replicate (c - 42) poison)
          phase := .headerBuilt }) := by
  have hlen : addressLengthsLegal p.srcMac.val p.dstMac.val p.srcIp.val p.dstIp.val = true := by
    simp [addressLengthsLegal, macLen, ipAlen]
  simp only [exec, execBuildHeader, whenTaken_idle hp, if_neg hphase, hlen, if_true, hcap,
    writeHeaders_ok p hcap h42 hout, afterAccess_ok, answerOk]

/-- SEND of a payload that fits completes its phase A wherever a header exists (R189 to R196). -/
theorem exec_send_ok {s : State} {bytes payload : List Byte} {hdr : Octets 20}
    (hp : s.pending = false) (hphase : headerExists s.phase = true)
    (hcap : s.cap = some bytes.length) (hfb : s.fb = cellsAt 0 bytes)
    (hfit : 42 + payload.length ≤ bytes.length) (hmax : bytes.length ≤ 65549)
    (hhdr : hdr.val = headerToSum bytes payload.length) :
    exec (.send payload) s
      = .next (issueTxRequest ((finishedOctets bytes payload (ipChecksum hdr)).take 6)
          ((finishedOctets bytes payload (ipChecksum hdr)).take (42 + payload.length))
          (42 + payload.length)
          { s with fb := cellsAt 0 (finishedOctets bytes payload (ipChecksum hdr)) }) := by
  obtain ⟨_, hl⟩ := hdr
  subst hhdr
  have hlength := finishedOctets_length (ipChecksum ⟨headerToSum bytes payload.length, hl⟩) hfit
  have hnot : ¬ hdrTotal + payload.length > bytes.length := Nat.not_lt.mpr hfit
  have hhand := handOff_ok (payload := payload)
    (s := { s with fb := cellsAt 0 (finishedOctets bytes payload (ipChecksum ⟨_, hl⟩)) })
    (by rw [hlength]; exact hcap) rfl (by rw [hlength]; exact hfit)
  simp only [hcap] at hhand
  simp only [exec, execSend, whenTaken_idle hp, hphase, if_true, hcap, if_neg hnot,
    finalizeFrame_ok hcap hfb hfit hmax, afterAccess_ok, hhand]

/-- Settles O30: BUILD_HEADER leaves the closed form's fields with poison in the others, and SEND fills
those in. -/
theorem frameInClosedForm : Obligations.FrameInClosedForm := by
  intro s p payload c h hp hphase hcap hfit
  obtain ⟨h42, hmax⟩ := h.legal c hcap
  have hlength : (builtHeader s.ipId p ++ List.replicate (c - 42) poison).length = c := by
    rw [List.length_append, builtHeader_length, List.length_replicate]
    omega
  refine ⟨_, _, exec_buildHeader_ok p hp hphase hcap h42 fun x b hr => lt_cap_of_readOctet h hcap hr,
    exec_send_ok (bytes := builtHeader s.ipId p ++ List.replicate (c - 42) poison) hp rfl
      (by rw [hlength]; exact hcap) rfl (by rw [hlength]; exact hfit) (by rw [hlength]; exact hmax)
      (headerToSum_builtHeader s.ipId p _ payload.length).symm, rfl, ?_⟩
  have hframe := frame_length s.ipId p payload
  rw [issueTxRequest_txRequests, finishedOctets_builtHeader, List.take_left' hframe,
    List.take_append_of_le_length (by omega), frame_take_six]
  rfl

/-! ### The lengths in a request -/

/-- The request a SEND issues holds the first octets of what phase A leaves in FB (R196). -/
theorem request_of_exec_send {s t : State} {payload : List Byte} {r : TxRequest} (h : Inv s)
    (hexec : exec (.send payload) s = .next t) (hreq : t.txRequests = s.txRequests ++ [r]) :
    ∃ (bytes : List Byte) (csum : BitVec 16), 42 + payload.length ≤ bytes.length ∧
      bytes.length ≤ 65549 ∧ r.n = 42 + payload.length ∧
      r.data = (finishedOctets bytes payload csum).take (42 + payload.length) := by
  obtain ⟨hp, ⟨-, rfl⟩ | ⟨c, -, -, -, rfl⟩ | ⟨c, u, hphase, hcap, hfit, -, -⟩⟩ := execSend_cases hexec
  · simp at hreq
  · simp at hreq
  · obtain ⟨bytes, hbytes, hfb, h42, hmax⟩ := h.octets hphase
    obtain rfl : c = bytes.length := Option.some.inj (hcap.symm.trans hbytes)
    rw [exec_send_ok (hdr := ⟨_, headerToSum_length h42 _⟩) hp hphase hcap hfb hfit hmax rfl] at hexec
    cases hexec
    obtain rfl := List.singleton_inj.mp (List.append_cancel_left hreq)
    exact ⟨bytes, _, hfit, hmax, rfl, rfl⟩

/-- A 16-bit field of FB's first `n` octets has the value written to it. -/
theorem decodeBe_field {bytes rest : List Byte} {a k n v : Nat} (hv : v < 2 ^ 16) (hk : 2 ≤ k)
    (ha : a + k ≤ n) (hn : n ≤ bytes.length)
    (hr : readOctets (cellsAt 0 bytes) a k = some (encodeBe 2 (BitVec.ofNat 16 v) ++ rest)) :
    decodeBe (((bytes.take n).drop a).take 2) = v := by
  rw [readOctets_cellsAt (by omega), Option.some.injEq] at hr
  have hfield : ((bytes.take n).drop a).take 2 = ((bytes.drop a).take k).take 2 := by
    rw [List.drop_take, List.take_take, List.take_take, Nat.min_eq_left (by omega),
      Nat.min_eq_left hk]
  rw [hfield, hr, List.take_left' (encodeBe_length 2 _), decodeBe_encodeBe, BitVec.toNat_ofNat]
  exact Nat.mod_eq_of_lt hv

/-- Settles O31: the length fields are what phase A writes to them, and CAP bounds the payload. -/
theorem requestLengthsAgree : Obligations.RequestLengthsAgree := by
  intro s t payload r h hexec hreq
  obtain ⟨bytes, csum, hfit, hmax, hn, hdata⟩ := request_of_exec_send h hexec hreq
  have hlength := finishedOctets_length csum hfit
  have hdatalen : r.data.length = 42 + payload.length := by
    rw [hdata, List.length_take_of_le (by omega)]
  have htot : decodeBe ((r.data.drop 16).take 2) = 28 + payload.length := by
    rw [hdata]
    exact decodeBe_field (rest := []) (by omega) le_rfl (by omega) (by omega)
      (by rw [List.append_nil]; exact readOctets_totalLength csum (by omega))
  have hudp : decodeBe ((r.data.drop 38).take 2) = 8 + payload.length := by
    rw [hdata]
    exact decodeBe_field (k := 4) (by omega) (by omega) (by omega) (by omega)
      (readOctets_udpLength_sentinel csum (by omega))
  intro totlen udplen
  have htotlen : totlen = 28 + payload.length := htot
  have hudplen : udplen = 8 + payload.length := hudp
  omega

end Sys2Proof.Proofs
end

section
/-! PROOFS. What a step sends on the command port (spec/30_encoding.md R100, R110; spec/42_builder.md
R205; spec/60_exceptions.md R241; spec/70_reset_and_hazards.md R281): O50 and O51. -/

namespace Sys2Proof.Proofs

open Sys2Proof.Machine

/-! ### One response -/

/-- From `s` to `t` one response was sent, with a result only for OK (R110, R241). -/
def Answers (s t : State) : Prop :=
  ∃ st result, t.responses = s.responses ++ [responsePacket st result] ∧ (st ≠ .ok → result = [])

theorem answers_ok {s u : State} (hu : u.responses = s.responses) (result : List Byte) :
    Answers s (respond .ok result u) :=
  ⟨.ok, result, by rw [respond_responses, hu], fun hne => absurd rfl hne⟩

theorem answers_error {s u : State} (hu : u.responses = s.responses) (e : Status) :
    Answers s (respond e [] u) :=
  ⟨e, [], by rw [respond_responses, hu], fun _ => rfl⟩

theorem statusCode_mem (st : Status) :
    statusCode st ∈ [0x00, 0x01, 0x02, 0x03, 0x80, 0x81, 0x82, (0x83 : Byte)] := by
  cases st <;> decide

/-! ### Commands, packets and phase B -/

/-- A codec command or IPCSUM is answered OK (spec/40_codec.md R150; spec/41_checksum.md R166). -/
theorem exec_pure_answer {i : Instr} {s t : State} (hi : pureCommand i = true)
    (hp : s.pending = false) (h : exec i s = .next t) : t.pending = false ∧ Answers s t := by
  obtain ⟨result, hexec⟩ := exec_pure hi
  rw [hexec s hp] at h
  cases h
  exact ⟨hp, answers_ok rfl result⟩

/-- A command is answered once, or is a SEND that issued its request (R100, R205). -/
theorem exec_answer {i : Instr} {s t : State} (h : exec i s = .next t) :
    (t.pending = false ∧ Answers s t) ∨
    (t.pending = true ∧ t.responses = s.responses ∧ ∃ payload, i = .send payload) := by
  have hp : s.pending = false := by
    by_contra hne
    rw [exec_pending (by simpa using hne)] at h
    cases h
  cases i with
  | init c =>
    obtain ⟨-, ⟨-, rfl⟩ | ⟨-, -, rfl⟩ | ⟨-, -, rfl⟩⟩ := execInit_cases h
    · exact .inl ⟨hp, answers_error rfl _⟩
    · exact .inl ⟨hp, answers_error rfl _⟩
    · exact .inl ⟨hp, answers_ok rfl _⟩
  | buildHeader sm dm si di sp dp =>
    obtain ⟨-, ⟨-, rfl⟩ | ⟨-, -, rfl⟩ | ⟨c, u, -, -, hcap, hwrite, rfl⟩⟩ := execBuildHeader_cases h
    · exact .inl ⟨hp, answers_error rfl _⟩
    · exact .inl ⟨hp, answers_error rfl _⟩
    · obtain ⟨m, rfl, -⟩ := writeHeaders_cases hcap hwrite
      exact .inl ⟨hp, answers_ok rfl _⟩
  | send payload =>
    obtain ⟨-, ⟨-, rfl⟩ | ⟨c, -, -, -, rfl⟩ | ⟨c, u, -, -, -, hwrite, hhand⟩⟩ := execSend_cases h
    · exact .inl ⟨hp, answers_error rfl _⟩
    · exact .inl ⟨hp, answers_error rfl _⟩
    · obtain ⟨m, rfl, -⟩ := finalizeFrame_cases hwrite
      obtain ⟨dst, data, -, -, rfl⟩ := handOff_cases hhand
      exact .inr ⟨rfl, rfl, payload, rfl⟩
  | _ => exact .inl (exec_pure_answer rfl hp h)

/-- A packet taken is answered once, or is that of a SEND that issued its request (R100, R105). -/
theorem runPacket_answer {p : List Byte} {s t : State} (hp : s.pending = false)
    (h : runPacket p s = .next t) :
    (t.pending = false ∧ Answers s t) ∨
    (t.pending = true ∧ t.responses = s.responses ∧ ∃ payload, decode p = .ok (.send payload)) := by
  cases hdec : decode p with
  | error e =>
    simp only [runPacket, hdec] at h
    cases h
    exact .inl ⟨hp, answers_error rfl _⟩
  | ok i =>
    rw [runPacket_of_decode hdec] at h
    obtain hanswer | ⟨hpend, hresp, payload, rfl⟩ := exec_answer h
    · exact .inl hanswer
    · exact .inr ⟨hpend, hresp, payload, rfl⟩

/-- Phase B clears PENDING and answers once (spec/42_builder.md R197, R198). -/
theorem sendPhaseB_answer {r : TxResponse} {s t : State} (h : sendPhaseB r s = .next t) :
    t.pending = false ∧ Answers s t := by
  obtain ⟨hB, -⟩ | ⟨n, -, -, hB⟩ := sendPhaseB_cases r s
  all_goals
    rw [hB] at h
    cases h
  · exact ⟨rfl, answers_error rfl _⟩
  · exact ⟨rfl, answers_ok rfl _⟩

/-! ### Every step -/

theorem exists_response {s t : State} (h : Answers s t) : ∃ q, t.responses = s.responses ++ [q] := by
  obtain ⟨st, result, hresp, -⟩ := h
  exact ⟨_, hresp⟩

/-- A packet taken while PENDING = 0 (R100, R205). -/
theorem commandTaken_answer {s t : State} {p : List Byte} {left : List Input}
    (hp : s.pending = false) (hin : s.inputs = .command p :: left) (h : step s = .next t) :
    (t.pending = false ∧ ∃ q, t.responses = s.responses ++ [q]) ∨
    (t.pending = true ∧ t.responses = s.responses ∧ ∃ payload, decode p = .ok (.send payload)) := by
  rw [step_command hp hin] at h
  exact (runPacket_answer (s := { s with inputs := left }) hp h).imp_left fun ⟨hpend, hanswer⟩ =>
    ⟨hpend, exists_response hanswer⟩

/-- A step while PENDING = 1 (R205; spec/70_reset_and_hazards.md R281, R291). -/
theorem pendingStep_answer {s t : State} (hp : s.pending = true) (h : step s = .next t) :
    (t.pending = true ∧ t.responses = s.responses) ∨
    (t.pending = false ∧ (∃ q, t.responses = s.responses ++ [q]) ∧
      ∃ r left, nextInput true s.inputs = some (.txAnswer s.txRequests.length r, left)) ∨
    (t.pending = false ∧ t.responses = s.responses ∧
      ∃ left, nextInput true s.inputs = some (.reset, left)) := by
  obtain ⟨-, hs⟩ | ⟨p, left, hidle, -⟩ | ⟨left, hin, hs⟩ | ⟨q, r, left, -, -, hs⟩ |
    ⟨q, r, left, hin, -, rfl, hs⟩ := step_cases s
  · rw [hs] at h
    cases h
    exact .inl ⟨hp, rfl⟩
  · exact absurd (hp.symm.trans hidle) (by decide)
  · rw [hs] at h
    cases h
    exact .inr (.inr ⟨rfl, rfl, left, hp ▸ hin⟩)
  · rw [hs] at h
    cases h
    exact .inl ⟨hp, rfl⟩
  · rw [hs] at h
    obtain ⟨hpend, hanswer⟩ := sendPhaseB_answer h
    exact .inr (.inl ⟨hpend, exists_response (s := { s with inputs := left }) hanswer, r, left,
      hp ▸ hin⟩)

/-- A step while PENDING = 0 that takes no packet. -/
theorem idleStep_silent {s t : State} (hp : s.pending = false)
    (hin : ∀ p left, s.inputs ≠ .command p :: left) (h : step s = .next t) :
    t.pending = false ∧ t.responses = s.responses := by
  obtain ⟨-, hs⟩ | ⟨p, left, -, hcmd, -⟩ | ⟨left, -, hs⟩ | ⟨q, r, left, -, -, hs⟩ |
    ⟨q, r, left, -, hpend, -⟩ := step_cases s
  · rw [hs] at h
    cases h
    exact ⟨hp, rfl⟩
  · exact absurd hcmd (hin p left)
  · rw [hs] at h
    cases h
    exact ⟨rfl, rfl⟩
  · rw [hs] at h
    cases h
    exact ⟨hp, rfl⟩
  · exact absurd (hp.symm.trans hpend) (by decide)

/-- Settles O50: a packet taken, a step while a SEND waits, a step with nothing to run. -/
theorem commandAnsweredOnce : Obligations.CommandAnsweredOnce :=
  ⟨fun _ _ _ _ hp hin h => commandTaken_answer hp hin h, fun _ _ hp h => pendingStep_answer hp h,
    fun _ _ hp hin h => idleStep_silent hp hin h⟩

/-- A step answers once or not at all. -/
theorem step_answer {s t : State} (h : step s = .next t) :
    t.responses = s.responses ∨ Answers s t := by
  obtain ⟨-, hs⟩ | ⟨p, left, hp, -, hs⟩ | ⟨left, -, hs⟩ | ⟨q, r, left, -, -, hs⟩ |
    ⟨q, r, left, -, -, -, hs⟩ := step_cases s
  all_goals rw [hs] at h
  · cases h
    exact .inl rfl
  · obtain ⟨-, hanswer⟩ | ⟨-, hresp, -⟩ := runPacket_answer (s := { s with inputs := left }) hp h
    · exact .inr hanswer
    · exact .inl hresp
  · cases h
    exact .inl rfl
  · cases h
    exact .inl rfl
  · obtain ⟨-, hanswer⟩ := sendPhaseB_answer h
    exact .inr hanswer

/-- Settles O51: every answer is a response packet, and only OK is answered with a result. -/
theorem responsesWellFormed : Obligations.ResponsesWellFormed := by
  intro s t h
  refine (step_answer h).imp_right fun ⟨st, result, hresp, herror⟩ => ?_
  exact ⟨statusCode st, result, hresp, statusCode_mem st, fun hne =>
    herror fun hok => hne (by rw [hok]; rfl)⟩

end Sys2Proof.Proofs
end

section
/-! PROOFS. The byte-order codec (spec/40_codec.md R131 to R150): the relation between its two orders,
its round trips, and what its twelve commands answer: O7 to O13. -/

namespace Sys2Proof.Proofs

open Sys2Proof.Machine

/-! ### The two orders -/

/-- Either function gives each octet added the lowest place, at opposite ends of the sequence (R132,
R148). -/
theorem decodeLe_eq_decodeBe_reverse (b : List Byte) : decodeLe b = decodeBe b.reverse := by
  induction b with
  | nil => rfl
  | cons o b ih => rw [decodeLe_cons, ih, List.reverse_cons, decodeBe_concat]

/-- Octet `i` of one order is octet `n - 1 - i` of the other (R131, R147). -/
theorem encodeLe_eq_reverse_encodeBe (n : Nat) (v : BitVec (8 * n)) :
    encodeLe n v = (encodeBe n v).reverse := by
  refine List.ext_getElem? fun i => ?_
  obtain hin | hout := Nat.lt_or_ge i n
  · have hshift : 8 * n - 8 - 8 * (n - 1 - i) = 8 * i := by omega
    rw [encodeLe_getElem? n v hin, List.getElem?_reverse (by rwa [encodeBe_length]), encodeBe_length,
      encodeBe_getElem? n v (by omega), hshift]
  · rw [List.getElem?_eq_none (by rwa [encodeLe_length]),
      List.getElem?_eq_none (by rwa [List.length_reverse, encodeBe_length])]

/-- Settles O13: the relation holds at every number of octets. -/
theorem littleEndianIsReversedBigEndian : Obligations.LittleEndianIsReversedBigEndian :=
  ⟨fun n _ v => encodeLe_eq_reverse_encodeBe n v, fun b _ => decodeLe_eq_decodeBe_reverse b⟩

/-! ### Round trips -/

/-- Round trip, value first (R145). -/
theorem decodeLe_encodeLe (n : Nat) (v : BitVec (8 * n)) : decodeLe (encodeLe n v) = v.toNat := by
  rw [encodeLe_eq_reverse_encodeBe, decodeLe_eq_decodeBe_reverse, List.reverse_reverse,
    decodeBe_encodeBe]

/-- Settles O11: the round trip holds at every number of octets. -/
theorem codecRoundTripValueFirst : Obligations.CodecRoundTripValueFirst :=
  fun n _ v => ⟨decodeBe_encodeBe n v, decodeLe_encodeLe n v⟩

theorem leWord_eq_beWord_reverse (n : Nat) (b : Octets n) :
    leWord n b = beWord n ⟨b.val.reverse, List.length_reverse.trans b.property⟩ :=
  congrArg (BitVec.ofNat (8 * n)) (decodeLe_eq_decodeBe_reverse b.val)

/-- Round trip, octets first (R146). -/
theorem encodeLe_leWord (n : Nat) (b : Octets n) : encodeLe n (leWord n b) = b.val := by
  rw [leWord_eq_beWord_reverse, encodeLe_eq_reverse_encodeBe, encodeBe_beWord, List.reverse_reverse]

/-- No two values have the same octets, most significant first (R146). -/
theorem encodeBe_injective (n : Nat) : Function.Injective (encodeBe n) := fun v w h =>
  BitVec.eq_of_toNat_eq (by rw [← decodeBe_encodeBe, h, decodeBe_encodeBe])

/-- No two values have the same octets, least significant first (R146). -/
theorem encodeLe_injective (n : Nat) : Function.Injective (encodeLe n) := fun v w h =>
  BitVec.eq_of_toNat_eq (by rw [← decodeLe_encodeLe, h, decodeLe_encodeLe])

/-- Settles O12: the value the octets are decoded to is encoded to them, and by the other round trip
no other value is. -/
theorem codecRoundTripOctetsFirst : Obligations.CodecRoundTripOctetsFirst := by
  intro n _
  have hbe (b : List Byte) (hb : b.length = n) : encodeBe n (BitVec.ofNat (8 * n) (decodeBe b)) = b :=
    encodeBe_beWord n ⟨b, hb⟩
  have hle (b : List Byte) (hb : b.length = n) : encodeLe n (BitVec.ofNat (8 * n) (decodeLe b)) = b :=
    encodeLe_leWord n ⟨b, hb⟩
  exact ⟨fun b hb => ⟨hbe b hb, hle b hb⟩, fun b hb =>
    ⟨⟨_, hbe b hb, fun w hw => encodeBe_injective n (hw.trans (hbe b hb).symm)⟩,
      ⟨_, hle b hb, fun w hw => encodeLe_injective n (hw.trans (hle b hb).symm)⟩⟩⟩

/-! ### What the commands answer -/

/-- A command taken that ends with OK sends one response and changes nothing else (R150). -/
theorem whenTaken_answerOk {s : State} (hp : s.pending = false) {result octets : List Byte}
    (h : result = octets) :
    whenTaken s (answerOk result s) = .next { s with responses := s.responses ++ [0x00 :: octets] } := by
  subst h
  exact whenTaken_idle hp _

/-- The octets of a value, most significant first, as its bits (R131). -/
theorem encodeBe_eq_map_extractLsb' (n : Nat) (v : BitVec (8 * n)) :
    encodeBe n v = (List.range n).map fun i => v.extractLsb' (8 * n - 8 - 8 * i) 8 := rfl

/-- The octets of a value, least significant first, as its bits (R147). -/
theorem encodeLe_eq_map_extractLsb' (n : Nat) (v : BitVec (8 * n)) :
    encodeLe n v = (List.range n).map fun i => v.extractLsb' (8 * i) 8 := rfl

/-- Settles O7: each command answers `encodeBe` of its value, octet `i` of which is the eight bits from
`8n - 8 - 8i` on. -/
theorem encodeBigEndianResults : Obligations.EncodeBigEndianResults := fun _ hp =>
  ⟨fun v => whenTaken_answerOk hp (encodeBe_eq_map_extractLsb' 2 v),
    fun v => whenTaken_answerOk hp (encodeBe_eq_map_extractLsb' 4 v),
    fun v => whenTaken_answerOk hp (encodeBe_eq_map_extractLsb' 8 v)⟩

/-- Settles O8: each command answers `encodeLe` of its value, octet `i` of which is the eight bits from
`8i` on. -/
theorem encodeLittleEndianResults : Obligations.EncodeLittleEndianResults := fun _ hp =>
  ⟨fun v => whenTaken_answerOk hp (encodeLe_eq_map_extractLsb' 2 v),
    fun v => whenTaken_answerOk hp (encodeLe_eq_map_extractLsb' 4 v),
    fun v => whenTaken_answerOk hp (encodeLe_eq_map_extractLsb' 8 v)⟩

/-- The first octet has the highest place (R132). -/
theorem decodeBe_cons (o : Byte) (b : List Byte) :
    decodeBe (o :: b) = o.toNat * 256 ^ b.length + decodeBe b := by
  induction b using List.reverseRecOn with
  | nil => simpa using decodeBe_concat [] o
  | append_singleton b p ih =>
    rw [← List.cons_append, decodeBe_concat, ih, decodeBe_concat, List.length_append,
      List.length_singleton, Nat.pow_succ]
    ring

/-- Settles O9: each command answers `encodeBe` of the value its octets have by place. -/
theorem decodeBigEndianResults : Obligations.DecodeBigEndianResults := by
  intro s hp
  refine ⟨fun b0 b1 => ?_, fun b0 b1 b2 b3 => ?_, fun b0 b1 b2 b3 b4 b5 b6 b7 => ?_⟩
  all_goals
    refine whenTaken_answerOk hp (congrArg (encodeBe _ <| BitVec.ofNat _ ·) ?_)
    simp only [decodeBe_cons, decodeBe_nil, List.length_cons, List.length_nil]
    omega

/-- Settles O10: each command answers `encodeBe` of the value its octets have by place. -/
theorem decodeLittleEndianResults : Obligations.DecodeLittleEndianResults := by
  intro s hp
  refine ⟨fun b0 b1 => ?_, fun b0 b1 b2 b3 => ?_, fun b0 b1 b2 b3 b4 b5 b6 b7 => ?_⟩
  all_goals
    refine whenTaken_answerOk hp (congrArg (encodeBe _ <| BitVec.ofNat _ ·) ?_)
    simp only [decodeLe_cons, decodeLe_nil]
    omega

end Sys2Proof.Proofs
end

section
/-! PROOFS. The checksum calculator (spec/41_checksum.md R161 to R170; spec/42_builder.md R193): the fold
characterised, the extreme checksums, self-verification, what IPCSUM answers, and the header of every
frame handed over: O14, O15, O17 and O32. -/

namespace Sys2Proof.Proofs

open Sys2Proof.Machine Sys2Proof.Safety

/-! ### The fold characterised (R170) -/

theorem onesFold_le (t : Nat) : onesFold t ≤ 0xFFFF := Nat.le_of_lt_succ (onesFold_lt t)

theorem onesFold_pos {t : Nat} (ht : t ≠ 0) : 1 ≤ onesFold t :=
  Nat.one_le_iff_ne_zero.mpr (mt (onesFold_eq_zero_iff t).mp ht)

/-- From 1 to 0xFFFF each residue modulo 0xFFFF has one representative. -/
theorem eq_onesFold {t r : Nat} (ht : t ≠ 0) (hpos : 1 ≤ r) (hle : r ≤ 0xFFFF)
    (hmod : r % 0xFFFF = t % 0xFFFF) : r = onesFold t := by
  have hfold := onesFold_mod t
  have hfoldpos := onesFold_pos ht
  have hfoldle := onesFold_le t
  omega

/-- A summand may be folded before it is added: the end-around carry. -/
theorem onesFold_onesFold_add (t w : Nat) : onesFold (onesFold t + w) = onesFold (t + w) := by
  have hzero := onesFold_eq_zero_iff t
  by_cases hsum : t + w = 0
  · rw [hsum, show onesFold t + w = 0 by omega]
  · refine eq_onesFold hsum (onesFold_pos (by omega)) (onesFold_le _) ?_
    rw [onesFold_mod, Nat.add_mod, onesFold_mod, ← Nat.add_mod]

/-- Folding after every word, from an accumulator already folded, is folding once at the end. -/
theorem foldl_onesFold (ws : List Nat) (acc : Nat) :
    ws.foldl (fun acc w => onesFold (acc + w)) (onesFold acc) = onesFold (acc + ws.sum) := by
  induction ws generalizing acc with
  | nil => rfl
  | cons w ws ih => rw [List.foldl_cons, onesFold_onesFold_add, ih, List.sum_cons, Nat.add_assoc]

/-- The fold is 0xFFFF for the positive multiples of 0xFFFF only. -/
theorem onesFold_eq_ffff_iff (t : Nat) : onesFold t = 0xFFFF ↔ 0 < t ∧ t % 0xFFFF = 0 := by
  refine ⟨fun h => ⟨?_, ?_⟩, fun ⟨hpos, hmod⟩ => onesFold_eq_ffff (by omega) hmod⟩
  · exact Nat.pos_of_ne_zero fun h0 => by simp [(onesFold_eq_zero_iff t).mpr h0] at h
  · rw [← onesFold_mod, h]

/-! ### The words other than the checksum word, octet by octet (R161, R164) -/

/-- Word `k` of the header by its two octets, the checksum word counting as zero. -/
def otherWord (h : Octets 20) (k : Nat) : Nat :=
  if k = 5 then 0 else (h.val.getD (2 * k) 0).toNat * 256 + (h.val.getD (2 * k + 1) 0).toNat

theorem decodeBe_drop_take_two {b : List Byte} {a : Nat} (ha : a + 1 < b.length) :
    decodeBe ((b.drop a).take 2) = (b.getD a 0).toNat * 256 + (b.getD (a + 1) 0).toNat := by
  rw [List.drop_eq_getElem_cons (by omega), List.drop_eq_getElem_cons ha, List.take_succ_cons,
    List.take_succ_cons, List.take_zero, decodeBe_two, List.getD_eq_getElem _ _ (by omega),
    List.getD_eq_getElem _ _ ha, Nat.mul_comm]

theorem ipWords_set_zero (h : Octets 20) :
    (ipWords h).set 5 0 = (List.range 10).map (otherWord h) := by
  refine List.ext_getElem (by simp) fun k hk _ => ?_
  rw [List.length_set, ipWords_length] at hk
  rw [List.getElem_set, List.getElem_map, List.getElem_range, otherWord]
  by_cases h5 : k = 5
  · rw [if_pos h5.symm, if_pos h5]
  · rw [if_neg (Ne.symm h5), if_neg h5, ipWords_getElem,
      decodeBe_drop_take_two (by rw [h.property]; omega)]

theorem ipWords_eraseIdx_sum (h : Octets 20) :
    ((ipWords h).eraseIdx 5).sum = ((List.range 10).map (otherWord h)).sum := by
  rw [← sum_set_zero, ipWords_set_zero]

theorem otherWord_eq_zero_iff {h : Octets 20} {k : Nat} (h5 : k ≠ 5) :
    otherWord h k = 0 ↔ h.val.getD (2 * k) 0 = 0 ∧ h.val.getD (2 * k + 1) 0 = 0 := by
  simp only [otherWord, if_neg h5, ← BitVec.toNat_inj, BitVec.ofNat_eq_ofNat, BitVec.toNat_ofNat,
    Nat.zero_mod]
  omega

/-- An octet of the header lies in the word of half its place. -/
theorem otherWords_eq_zero_iff (h : Octets 20) :
    (∀ k < 10, otherWord h k = 0) ↔ ∀ i, i < 20 → i ≠ 10 → i ≠ 11 → h.val[i]? = some 0x00 := by
  have hoctet (i : Nat) (hi : i < 20) : h.val[i]? = some 0x00 ↔ h.val.getD i 0 = 0 := by
    have hlt : i < h.val.length := h.property.symm ▸ hi
    rw [List.getElem?_eq_getElem hlt, List.getD_eq_getElem _ _ hlt, Option.some.injEq]
  constructor
  · intro hwords i hi h10 h11
    obtain ⟨heven, hodd⟩ :=
      (otherWord_eq_zero_iff (by omega)).mp (hwords (i / 2) (by omega))
    rw [hoctet i hi]
    obtain hplace | hplace : i = 2 * (i / 2) ∨ i = 2 * (i / 2) + 1 := by omega
    · rwa [hplace]
    · rwa [hplace]
  · intro hoctets k hk
    by_cases h5 : k = 5
    · rw [otherWord, if_pos h5]
    · have hzero (i : Nat) (hi : i < 20) (h10 : i ≠ 10) (h11 : i ≠ 11) : h.val.getD i 0 = 0 :=
        (hoctet i hi).mp (hoctets i hi h10 h11)
      exact (otherWord_eq_zero_iff h5).mpr ⟨hzero _ (by omega) (by omega) (by omega),
        hzero _ (by omega) (by omega) (by omega)⟩

/-! ### The extreme checksums (R170) -/

theorem ipChecksum_eq_ffff_iff (h : Octets 20) :
    ipChecksum h = 0xFFFF ↔ ((ipWords h).eraseIdx 5).sum = 0 := by
  have hle := onesFold_le ((ipWords h).eraseIdx 5).sum
  have hffff : (0xFFFF : BitVec 16).toNat = 0xFFFF := rfl
  rw [← onesFold_eq_zero_iff, ← BitVec.toNat_inj, ipChecksum_toNat, hffff]
  omega

theorem ipChecksum_eq_zero_iff (h : Octets 20) :
    ipChecksum h = 0x0000 ↔
      0 < ((ipWords h).eraseIdx 5).sum ∧ ((ipWords h).eraseIdx 5).sum % 0xFFFF = 0 := by
  have hle := onesFold_le ((ipWords h).eraseIdx 5).sum
  have hzero : (0x0000 : BitVec 16).toNat = 0 := rfl
  rw [← onesFold_eq_ffff_iff, ← BitVec.toNat_inj, ipChecksum_toNat, hzero]
  omega

/-- The sum is zero only where each of its words is. -/
theorem ipChecksum_eq_ffff_iff_octets (h : Octets 20) :
    ipChecksum h = 0xFFFF ↔ ∀ i, i < 20 → i ≠ 10 → i ≠ 11 → h.val[i]? = some 0x00 := by
  rw [ipChecksum_eq_ffff_iff, ipWords_eraseIdx_sum, List.sum_eq_zero_iff, ← otherWords_eq_zero_iff]
  simp only [List.forall_mem_map, List.mem_range]

/-- Settles O14: the fold keeps the residue modulo 0xFFFF and being zero, and a checksum is the
complement of the fold of the other nine words. -/
theorem onesFoldCharacterised : Obligations.OnesFoldCharacterised :=
  ⟨onesFold_eq_zero_iff,
    fun t ht => ⟨⟨onesFold_pos ht, onesFold_le t, onesFold_mod t⟩, fun _ => eq_onesFold ht⟩,
    fun ws _ => by simpa [onesFold_small] using foldl_onesFold ws 0,
    ipChecksum_eq_ffff_iff_octets, ipChecksum_eq_zero_iff⟩

/-! ### Self-verification (R165) -/

/-- Settles O15: the header with its checksum stored is `withChecksum`, whose fold is 0xFFFF. -/
theorem checksumSelfVerifies : Obligations.ChecksumSelfVerifies := by
  refine ⟨fun h => complement16_toNat (onesSum h), fun h g hg => ?_⟩
  obtain rfl : g = withChecksum h := Subtype.ext hg
  exact ⟨onesSum_withChecksum h, ipVerify_withChecksum h⟩

/-! ### What IPCSUM answers (R166) -/

/-- A 16-bit value as its two octets (spec/40_codec.md R131). -/
theorem encodeBe_two {v : BitVec 16} {c : Nat} (hv : v.toNat = c) :
    encodeBe 2 v = [BitVec.ofNat 8 (c / 256), BitVec.ofNat 8 (c % 256)] := by
  have hlow : BitVec.ofNat 8 (c % 256) = BitVec.ofNat 8 c :=
    BitVec.eq_of_toNat_eq (by simp only [BitVec.toNat_ofNat]; omega)
  subst hv
  simp [encodeBe, List.range_succ, Nat.shiftRight_eq_div_pow, hlow]

/-- Settles O17: IPCSUM answers the octets of the checksum, the complement of the fold of the other nine
words. -/
theorem ipcsumResult : Obligations.IpcsumResult := by
  intro h s hp sum c
  have hchecksum : (ipChecksum h).toNat = c := by
    rw [ipChecksum_toNat, ipWords_eraseIdx_sum]
    rfl
  exact whenTaken_answerOk hp (encodeBe_two hchecksum)

/-! ### The header of every frame handed over (spec/42_builder.md R193, R196) -/

/-- What is read inside a range read is that part of its octets. -/
theorem readOctets_slice {m : Memory} (hm : Memory.wf m) {a b k n : Nat} {bytes : List Byte}
    (hr : readOctets m a n = some bytes) (hin : b + k ≤ n) :
    readOctets m (a + b) k = some ((bytes.drop b).take k) := by
  obtain ⟨hlength, hoctets⟩ := (readOctets_eq_some_iff hm).mp hr
  refine (readOctets_eq_some_iff hm).mpr ⟨?_, fun i hi => ?_⟩
  · rw [List.length_take, List.length_drop]
    omega
  · rw [Nat.add_assoc, hoctets (b + i) (by omega), List.getElem?_take_of_lt hi, List.getElem?_drop]

/-- A SEND that issues a request leaves a finished header in FB and hands over FB's first octets
(spec/42_builder.md R191 to R196). -/
theorem finishedHeader_of_exec_send {s t : State} {payload : List Byte} {r : TxRequest} (h : Inv s)
    (hexec : exec (.send payload) s = .next t) (hreq : t.txRequests = s.txRequests ++ [r]) :
    FinishedHeader t ∧ Memory.wf t.fb ∧ readOctets t.fb 0 (42 + payload.length) = some r.data := by
  obtain ⟨-, ⟨-, rfl⟩ | ⟨c, -, -, -, rfl⟩ | ⟨c, u, hphase, hcap, hfit, hwrite, hhand⟩⟩ :=
    execSend_cases hexec
  · simp at hreq
  · simp at hreq
  · obtain ⟨m, rfl, hm⟩ := finalizeFrame_cases hwrite
    obtain ⟨hwf, -⟩ := hm h.memory
    obtain ⟨dst, data, -, hdata, rfl⟩ := handOff_cases hhand
    obtain rfl := List.singleton_inj.mp (List.append_cancel_left hreq)
    exact ⟨finishedHeader_of_same_buffer rfl rfl
      (finishedHeader_finalizeFrame h hphase hcap hfit hwrite), hwf, hdata⟩

/-- Settles O32: octets 14 to 33 handed over are those of the finished header in FB. -/
theorem transmittedHeaderVerifies : Obligations.TransmittedHeaderVerifies := by
  intro s t payload r h hexec hreq
  obtain ⟨⟨_, _, hdr, -, -, -, -, hread, hverify⟩, hwf, hdata⟩ :=
    finishedHeader_of_exec_send h hexec hreq
  obtain ⟨_, -, -, hheader⟩ := memRead_cases hread
  have hslice := readOctets_slice (b := 14) (k := 20) hwf hdata (by omega)
  rw [Nat.zero_add] at hslice
  exact ⟨hdr, Option.some.inj (hheader.symm.trans hslice), hverify⟩

end Sys2Proof.Proofs
end

section
/-! PROOFS. INIT, the address lengths of BUILD_HEADER and phase B of SEND (spec/42_builder.md R181, R185,
R197, R198, R206; spec/60_exceptions.md R244, R246, R247): O19, O21, O28 and O29. -/

namespace Sys2Proof.Proofs

open Sys2Proof.Machine Sys2Proof.Safety

/-! ### INIT (R181, R206) -/

/-- Settles O19: a case per check of INIT. -/
theorem initResult : Obligations.InitResult := by
  intro c s hp
  refine ⟨fun hphase => ?_, fun hphase hbounds => ?_, fun hphase hmin hmax => ?_⟩
  · simp only [exec, execInit, whenTaken_idle hp, if_pos hphase]
    rfl
  · have hillegal : ¬ capacityLegal c.toNat = true := by
      rw [capacityLegal_iff]
      omega
    simp only [exec, execInit, whenTaken_idle hp, if_neg (not_not.mpr hphase), if_neg hillegal]
    rfl
  · have hlegal : capacityLegal c.toNat = true := capacityLegal_iff.mpr ⟨hmin, hmax⟩
    simp only [exec, execInit, whenTaken_idle hp, if_neg (not_not.mpr hphase), if_pos hlegal]
    rfl

/-! ### The lengths of the four addresses (R185) -/

theorem addressLengthsLegal_iff {sm dm si di : List Byte} :
    addressLengthsLegal sm dm si di = true ↔
      ((sm.length = 6 ∧ dm.length = 6) ∧ si.length = 4) ∧ di.length = 4 := by
  simp only [addressLengthsLegal, Bool.and_eq_true, decide_eq_true_eq]
  exact Iff.rfl

/-- Settles O21: the lengths are checked before anything is written. -/
theorem addressLengthErrors : Obligations.AddressLengthErrors := by
  intro s sm dm si di sp dp hp hphase hlengths
  have hillegal : ¬ addressLengthsLegal sm dm si di = true := by
    rw [addressLengthsLegal_iff]
    omega
  simp only [exec, execBuildHeader, whenTaken_idle hp, if_neg hphase, if_neg hillegal]
  rfl

/-! ### Phase B (R197, R198) -/

/-- Settles O28: the count is answered as `encodeBe` of it, four octets. -/
theorem phaseBResult : Obligations.PhaseBResult := by
  refine fun s => ⟨rfl, rfl, fun r hr => ?_⟩
  simp only [sendPhaseB, if_neg hr, encodeBe_eq_map_extractLsb' 4 r]
  rfl

/-- The step that takes the awaited answer runs phase B, and commands held back stay in place
(log entries 10 and 11). -/
theorem step_awaitedAnswer {s : State} {held rest : List Input} {r : TxResponse}
    (hp : s.pending = true) (hheld : HeldBack s held)
    (hin : s.inputs = held ++ .txAnswer s.txRequests.length r :: rest) :
    step s = sendPhaseB r { s with inputs := held ++ rest } := by
  obtain ⟨-, hcommands⟩ := hheld
  simp [step, hp, hin, nextInput_held hcommands, takeTxAnswer, answersPending]

/-- Settles O29: the step is phase B, whose results O28 gives. -/
theorem answerEndsSend : Obligations.AnswerEndsSend := by
  intro s held rest hp hheld
  obtain ⟨hfail, hzero, hcount⟩ := phaseBResult { s with inputs := held ++ rest }
  refine ⟨?_, fun r hr hin => (step_awaitedAnswer hp hheld hin).trans (hcount r hr)⟩
  rintro (hin | hin)
  · exact (step_awaitedAnswer hp hheld hin).trans hfail
  · exact (step_awaitedAnswer hp hheld hin).trans hzero

end Sys2Proof.Proofs
end

section
/-! PROOFS. BUILD_HEADER: what it writes to FB, what it leaves unchanged, and that a second one leaves
nothing of the first (spec/42_builder.md R184 to R188, R204): O22, O23 and O24. -/

namespace Sys2Proof.Proofs

open Sys2Proof.Machine Sys2Proof.Safety

/-! ### FB above CAP -/

/-- The state with the cells `high` behind those of FB. -/
def withCellsAbove (high : Memory) (s : State) : State := { s with fb := s.fb ++ high }

/-- Of the cells below an address none is among those that stand at and above it. -/
theorem takeWhile_append_above {m high : Memory} {x : Nat} (hhigh : ∀ d ∈ high, x ≤ d.1) :
    (m ++ high).takeWhile (fun d => d.1 < x) = m.takeWhile (fun d => d.1 < x) := by
  have hnone : high.takeWhile (fun d => decide (d.1 < x)) = [] := by
    cases high with
    | nil => rfl
    | cons d ds => exact List.takeWhile_cons_of_neg (by simpa using hhigh d (by simp))
  rw [List.takeWhile_append, hnone, List.append_nil]
  split
  · next hall => exact ((List.takeWhile_prefix _).eq_of_length hall).symm
  · rfl

/-- Dropping the cells below an address keeps those that stand at and above it. -/
theorem dropWhile_append_above {m high : Memory} {x : Nat} (hhigh : ∀ d ∈ high, x ≤ d.1) :
    (m ++ high).dropWhile (fun d => d.1 < x) = m.dropWhile (fun d => d.1 < x) ++ high := by
  have hkeep : high.dropWhile (fun d => decide (d.1 < x)) = high := by
    cases high with
    | nil => rfl
    | cons d ds => exact List.dropWhile_cons_of_neg (by simpa using hhigh d (by simp))
  rw [List.dropWhile_append, hkeep]
  split
  · next hall => rw [List.isEmpty_iff.mp hall, List.nil_append]
  · rfl

/-- A write below the cells `high` leaves them as they are. -/
theorem writeOctets_append {m high : Memory} {c a : Nat} {bs : List Byte}
    (hhigh : ∀ d ∈ high, c ≤ d.1) (hle : a + bs.length ≤ c) :
    writeOctets (m ++ high) a bs = writeOctets m a bs ++ high := by
  have habove : ∀ d ∈ high, a + bs.length ≤ d.1 := fun d hd => hle.trans (hhigh d hd)
  rw [writeOctets, writeOctets, dropWhile_append_above habove,
    takeWhile_append_above fun d hd => (Nat.le_add_right a _).trans (habove d hd),
    List.append_assoc _ _ high]

/-- The FB accesses `f` run the same whatever cells stand at and above CAP, and leave those. -/
def LeavesCellsAbove (c : Nat) (high : Memory) (f : State → Except Fault State) : Prop :=
  ∀ s t, s.cap = some c → f s = .ok t →
    t.cap = some c ∧ f (withCellsAbove high s) = .ok (withCellsAbove high t)

theorem LeavesCellsAbove.bind {c : Nat} {high : Memory} {f g : State → Except Fault State}
    (hf : LeavesCellsAbove c high f) (hg : LeavesCellsAbove c high g) :
    LeavesCellsAbove c high (fun s => f s >>= g) := by
  intro s t hcap h
  obtain ⟨u, hu, ht⟩ := bind_ok h
  obtain ⟨hucap, hu'⟩ := hf s u hcap hu
  obtain ⟨htcap, ht'⟩ := hg u t hucap ht
  exact ⟨htcap, by simp only [hu']; exact ht'⟩

/-- The octets written may depend on the state, but not on FB. -/
theorem leavesCellsAbove_memWrite {c : Nat} {high : Memory} (hhigh : ∀ d ∈ high, c ≤ d.1) (a : Nat)
    (bs : State → List Byte) (hbs : ∀ s, bs (withCellsAbove high s) = bs s) :
    LeavesCellsAbove c high (fun s => memWrite s a (bs s)) := by
  intro s t hcap h
  obtain ⟨d, hd, hle, rfl⟩ := memWrite_cases h
  obtain rfl : c = d := Option.some.inj (hcap.symm.trans hd)
  refine ⟨hcap, ?_⟩
  simp only [hbs]
  rw [memWrite_ok (s := withCellsAbove high s) hcap hle]
  simp only [withCellsAbove, writeOctets_append hhigh hle]

theorem leavesCellsAbove_writeHeaders {c : Nat} {high : Memory} (hhigh : ∀ d ∈ high, c ≤ d.1)
    (sm dm si di : List Byte) (sp dp : BitVec 16) :
    LeavesCellsAbove c high (writeHeaders sm dm si di sp dp c) := by
  have key := fun a bs => leavesCellsAbove_memWrite hhigh a (fun _ => bs) fun _ => rfl
  have keyId := leavesCellsAbove_memWrite hhigh 18 (fun s => encodeBe 2 s.ipId) fun _ => rfl
  exact (key 0 _).bind <| (key 0 dm).bind <| (key 6 sm).bind <| (key 12 _).bind <| (key 14 _).bind <|
    (key 15 _).bind <| keyId.bind <| (key 20 _).bind <| (key 22 _).bind <| (key 23 _).bind <|
    (key 26 si).bind <| (key 30 di).bind <| (key 34 _).bind (key 36 _)

/-- BUILD_HEADER writes FB below CAP whatever it held, and leaves FB at and above CAP (R184, R187). -/
theorem writeHeaders_ok_of_wf {s : State} {c : Nat} (p : FrameParams) (hcap : s.cap = some c)
    (h42 : 42 ≤ c) (hwf : Memory.wf s.fb) :
    writeHeaders p.srcMac.val p.dstMac.val p.srcIp.val p.dstIp.val p.srcPort p.dstPort c s
      = .ok { s with fb := cellsAt 0 (builtHeader s.ipId p ++ List.replicate (c - 42) poison)
          ++ s.fb.dropWhile (fun d => d.1 < c) } := by
  have hlow := writeHeaders_ok (s := { s with fb := s.fb.takeWhile (fun d => d.1 < c) }) p hcap h42
    fun x b hx => mem_takeWhile_below (readOctet_mem hx)
  obtain ⟨-, hall⟩ := leavesCellsAbove_writeHeaders (high := s.fb.dropWhile (fun d => d.1 < c))
    (fun d hd => mem_dropWhile_below hwf hd) _ _ _ _ _ _
    { s with fb := s.fb.takeWhile (fun d => d.1 < c) } _ hcap hlow
  rw [withCellsAbove, List.takeWhile_append_dropWhile] at hall
  exact hall

/-! ### What BUILD_HEADER leaves -/

/-- The header BUILD_HEADER leaves and the poison behind it, octet by octet (R187, R188). -/
theorem builtHeader_append_poison (ipId : BitVec 16) (sm dm : Octets 6) (si di : Octets 4)
    (sp dp : BitVec 16) (n : Nat) :
    builtHeader ipId ⟨sm, dm, si, di, sp, dp⟩ ++ List.replicate n poison
      = dm.val ++ sm.val ++ [0x08, 0x00]
        ++ [0x45, 0x00, 0xDD, 0xDD, ipId.extractLsb' 8 8, ipId.extractLsb' 0 8, 0x40, 0x00,
            0x40, 0x11, 0xDD, 0xDD] ++ si.val ++ di.val
        ++ [sp.extractLsb' 8 8, sp.extractLsb' 0 8, dp.extractLsb' 8 8, dp.extractLsb' 0 8,
            0xDD, 0xDD, 0xDD, 0xDD]
        ++ List.replicate n 0xDD := by
  simp only [builtHeader, List.append_assoc]
  rfl

/-- Settles O22: the header writes in closed form below CAP, and their frame above it. -/
theorem buildHeaderResult : Obligations.BuildHeaderResult := by
  intro s c dm sm si di sp dp hp hphase hcap h42 hwf
  have hwrite := writeHeaders_ok_of_wf ⟨sm, dm, si, di, sp, dp⟩ hcap h42 hwf
  obtain ⟨m, hm, hkeep⟩ := writeHeaders_cases hcap hwrite
  obtain rfl : _ = m := congrArg State.fb hm
  obtain ⟨hmwf, habove⟩ := hkeep hwf
  have hlen : addressLengthsLegal sm.val dm.val si.val di.val = true :=
    addressLengthsLegal_iff.mpr ⟨⟨⟨sm.property, dm.property⟩, si.property⟩, di.property⟩
  refine ⟨_, ?_, hmwf, fun a ha => ?_, fun a ha => habove a (Nat.not_lt.mpr ha)⟩
  · simp only [exec, execBuildHeader, whenTaken_idle hp, if_neg hphase, if_pos hlen, hcap, hwrite,
      afterAccess_ok]
    rfl
  · have hlength : a < (builtHeader s.ipId ⟨sm, dm, si, di, sp, dp⟩
        ++ List.replicate (c - 42) poison).length := by
      rw [List.length_append, builtHeader_length, List.length_replicate]
      omega
    rw [readOctet_append, readOctet_cellsAt, if_pos (Nat.zero_le a), Nat.sub_zero,
      ← builtHeader_append_poison, List.getElem?_eq_getElem hlength, Option.some_or]

/-- Settles O23: only the header writes touch FB, below CAP, and they end in OK. -/
theorem buildHeaderFrame : Obligations.BuildHeaderFrame := by
  intro s t sm dm si di sp dp hwf hexec
  obtain ⟨-, ⟨-, rfl⟩ | ⟨-, -, rfl⟩ | ⟨c, u, -, -, hcap, hwrite, rfl⟩⟩ := execBuildHeader_cases hexec
  · simp [hwf]
  · simp [hwf]
  · obtain ⟨m, rfl, hm⟩ := writeHeaders_cases hcap hwrite
    obtain ⟨hmwf, hkeep⟩ := hm hwf
    refine ⟨rfl, rfl, rfl, rfl, rfl, rfl, hmwf, fun a d hd ha => hkeep a ?_, fun hne => absurd rfl hne⟩
    obtain rfl := Option.some.inj (hcap.symm.trans hd)
    exact Nat.not_lt.mpr ha

/-! ### Retargeting (R204) -/

/-- BUILD_HEADER and the SEND after it, from a state of the invariant with a buffer: FB and the frame
handed over depend on the operands, CAP and IP_ID only (R187, R196). -/
theorem exec_buildHeader_send {s : State} {c : Nat} {payload : List Byte} (p : FrameParams) (h : Inv s)
    (hp : s.pending = false) (hcap : s.cap = some c) (hfit : 42 + payload.length ≤ c) :
    ∃ t u,
      exec (.buildHeader p.srcMac.val p.dstMac.val p.srcIp.val p.dstIp.val p.srcPort p.dstPort) s
        = .next t ∧
      t.phase = .headerBuilt ∧
      t.fb = cellsAt 0 (builtHeader s.ipId p ++ List.replicate (c - 42) poison) ∧
      exec (.send payload) t = .next u ∧
      u.txRequests = s.txRequests ++
        [⟨s.ifh, p.dstMac.val, frame s.ipId p payload, 42 + payload.length⟩] := by
  obtain ⟨h42, -⟩ := h.legal c hcap
  have hphase : s.phase ≠ .uninit := fun hu => by simp [h.capacity.mp hu] at hcap
  have hbuild := exec_buildHeader_ok p hp hphase hcap h42 fun x b hr => lt_cap_of_readOctet h hcap hr
  obtain ⟨t, u, ht, hsend, -, hreq⟩ := frameInClosedForm s p payload c h hp hphase hcap hfit
  obtain rfl := Host.Outcome.next.inj (hbuild.symm.trans ht)
  exact ⟨_, u, ht, rfl, rfl, hsend, hreq⟩

/-- Settles O24: the two states agree on CAP and IP_ID, all that FB and the frame depend on. -/
theorem retargetLeavesNothingStale : Obligations.RetargetLeavesNothingStale := by
  intro s₁ s₂ dm sm si di sp dp payload c h₁ h₂ hp₁ hp₂ hcap₁ hcap₂ hid hfit
  obtain ⟨t₁, u₁, hbuild₁, hphase₁, hfb₁, hsend₁, hreq₁⟩ :=
    exec_buildHeader_send ⟨sm, dm, si, di, sp, dp⟩ h₁ hp₁ hcap₁ hfit
  obtain ⟨t₂, u₂, hbuild₂, hphase₂, hfb₂, hsend₂, hreq₂⟩ :=
    exec_buildHeader_send ⟨sm, dm, si, di, sp, dp⟩ h₂ hp₂ hcap₂ hfit
  rw [← hid] at hfb₂ hreq₂
  exact ⟨t₁, t₂, u₁, u₂, _, _, hbuild₁, hbuild₂, hphase₁, hphase₂, hfb₁.trans hfb₂.symm, hsend₁,
    hsend₂, hreq₁, hreq₂, rfl, rfl, rfl, rfl⟩

end Sys2Proof.Proofs
end

section
/-! PROOFS. What SEND does where a header exists and the payload fits, as reads of FB
(spec/42_builder.md R189 to R196, R200): O26, O27 and O33. -/

namespace Sys2Proof.Proofs

open Sys2Proof.Machine Sys2Proof.Safety

/-- Settles O27: SEND's stores are all it changes in FB, and a SEND answered with an error stores
nothing. -/
theorem sendFrame : Obligations.SendFrame := by
  intro s t payload hwf hexec
  obtain ⟨hp, ⟨-, rfl⟩ | ⟨c, -, -, -, rfl⟩ | ⟨c, u, -, -, -, hwrite, hhand⟩⟩ := execSend_cases hexec
  · simp [hwf, hp]
  · simp [hwf, hp]
  · obtain ⟨m, rfl, hm⟩ := finalizeFrame_cases hwrite
    obtain ⟨hmwf, hkeep⟩ := hm hwf
    obtain ⟨dst, data, -, -, rfl⟩ := handOff_cases hhand
    refine ⟨rfl, rfl, rfl, rfl, rfl, hmwf, fun a ha => hkeep a ?_, nofun, fun _ => rfl⟩
    unfold sendStores
    omega

/-! ### Reads of a range and of its octets -/

/-- A range read gives each of its octets. -/
theorem readOctet_of_readOctets {m : Memory} (hm : Memory.wf m) {a n : Nat} {bs : List Byte}
    (h : readOctets m a n = some bs) {i : Nat} (hi : i < n) : readOctet m (a + i) = bs[i]? :=
  ((readOctets_eq_some_iff hm).mp h).2 i hi

/-- Two memories that read alike on a range agree on each of its octets. -/
theorem readOctet_eq_of_readOctets {m m' : Memory} (hm : Memory.wf m) (hm' : Memory.wf m') {a n : Nat}
    {bs : List Byte} (h : readOctets m a n = some bs) (h' : readOctets m' a n = some bs) {x : Nat}
    (hax : a ≤ x) (hxn : x < a + n) : readOctet m x = readOctet m' x := by
  obtain ⟨i, rfl⟩ := Nat.exists_eq_add_of_le hax
  rw [readOctet_of_readOctets hm h (by omega), readOctet_of_readOctets hm' h' (by omega)]

/-! ### What phase A leaves in FB -/

/-- What SEND of `payload` leaves in FB, from the memory `old` to the memory `m`, and the octets `data`
it hands over (R191 to R196). -/
structure SendLeaves (old : Memory) (payload : List Byte) (m : Memory) (data : List Byte) : Prop where
  canonical : Memory.wf m
  handed : readOctets m 0 (42 + payload.length) = some data
  stored : readOctets m 42 payload.length = some payload
  totalLength : readOctets m 16 2 = some (encodeBe 2 (BitVec.ofNat 16 (28 + payload.length)))
  checksum : ∃ hdr : Octets 20, readOctets m 14 20 = some hdr.val ∧
    readOctets m 24 2 = some (encodeBe 2 (ipChecksum hdr))
  udpLength : readOctets m 38 2 = some (encodeBe 2 (BitVec.ofNat 16 (8 + payload.length)))
  sentinel : readOctets m 40 2 = some [0x00, 0x00]
  unchanged : ∀ a, (a < 16 ∨ (18 ≤ a ∧ a < 24) ∨ (26 ≤ a ∧ a < 38) ∨ 42 + payload.length ≤ a) →
    readOctet m a = readOctet old a

/-- The payload (R191). -/
theorem readOctets_payload {bytes payload : List Byte} (csum : BitVec 16) (h42 : 42 ≤ bytes.length) :
    readOctets (cellsAt 0 (finishedOctets bytes payload csum)) 42 payload.length = some payload := by
  refine readOctets_block _ payload (bytes.drop (42 + payload.length)) rfl ?_ rfl
  simp only [List.length_append, List.length_take, List.length_drop, encodeBe_length,
    List.length_cons, List.length_nil]
  omega

/-- The checksum does not depend on the checksum word (R164). -/
theorem ipChecksum_withChecksumWord (w : Octets 2) (h : Octets 20) :
    ipChecksum (withChecksumWord w h) = ipChecksum h := by
  refine BitVec.eq_of_toNat_eq ?_
  rw [ipChecksum_toNat, ipChecksum_toNat, ipWords_withChecksumWord, List.eraseIdx_set_eq]

/-- The checksum word of the header left in FB is the checksum of that header (R193). -/
theorem exists_header_checksum {bytes payload : List Byte} {hdr : Octets 20} (h42 : 42 ≤ bytes.length)
    (hhdr : hdr.val = headerToSum bytes payload.length) :
    ∃ g : Octets 20,
      readOctets (cellsAt 0 (finishedOctets bytes payload (ipChecksum hdr))) 14 20 = some g.val ∧
      readOctets (cellsAt 0 (finishedOctets bytes payload (ipChecksum hdr))) 24 2
        = some (encodeBe 2 (ipChecksum g)) := by
  have hread := readOctets_header h42 hhdr (ipChecksum hdr)
  have hword := readOctets_slice (b := 10) (k := 2) (cellsAt_wf 0 _) hread (by omega)
  rw [withChecksumWord_val,
    drop_take_block (by simp) (encodeBe_length 2 _)] at hword
  exact ⟨_, hread, by rw [ipChecksum_withChecksumWord]; exact hword⟩

/-- SEND of a payload that fits, from a state of the invariant with a header (R189 to R196). -/
theorem exec_send_leaves {s : State} {c : Nat} {payload : List Byte} (h : Inv s)
    (hp : s.pending = false) (hphase : headerExists s.phase = true) (hcap : s.cap = some c)
    (hfit : 42 + payload.length ≤ c) :
    ∃ m dst data, exec (.send payload) s
        = .next (issueTxRequest dst data (42 + payload.length) { s with fb := m }) ∧
      readOctets s.fb 0 6 = some dst ∧ SendLeaves s.fb payload m data := by
  obtain ⟨bytes, hbytes, hfb, h42, hmax⟩ := h.octets hphase
  obtain rfl : c = bytes.length := Option.some.inj (hcap.symm.trans hbytes)
  have hexec := exec_send_ok (hdr := ⟨_, headerToSum_length h42 payload.length⟩) hp hphase hcap hfb
    hfit hmax rfl
  obtain ⟨-, -, -, -, -, hwf, hunchanged, -, -⟩ := sendFrame _ _ payload h.memory hexec
  have hlength := finishedOctets_length
    (ipChecksum ⟨headerToSum bytes payload.length, headerToSum_length h42 _⟩) hfit
  have hudp := readOctets_udpLength_sentinel (payload := payload)
    (ipChecksum ⟨headerToSum bytes payload.length, headerToSum_length h42 _⟩) h42
  refine ⟨_, _, _, hexec, ?_,
    { canonical := hwf
      handed := readOctets_cellsAt (by omega)
      stored := readOctets_payload _ h42
      totalLength := readOctets_totalLength _ h42
      checksum := exists_header_checksum h42 rfl
      udpLength := (readOctets_slice (b := 0) hwf hudp (by omega)).trans ?_
      sentinel := (readOctets_slice (b := 2) hwf hudp (by omega)).trans ?_
      unchanged := hunchanged }⟩
  · rw [readOctets_congr h.memory hwf fun i hi => (hunchanged (0 + i) (by omega)).symm]
    exact readOctets_cellsAt (by omega)
  · rw [List.drop_zero, List.take_left' (encodeBe_length 2 _)]
  · rw [List.drop_left' (encodeBe_length 2 _)]
    rfl

/-! ### SEND's results -/

/-- The two octets of a 16-bit field. -/
theorem readOctet_field {m : Memory} (hm : Memory.wf m) {a v : Nat} (hv : v < 2 ^ 16)
    (h : readOctets m a 2 = some (encodeBe 2 (BitVec.ofNat 16 v))) :
    readOctet m a = some (BitVec.ofNat 8 (v / 256)) ∧
      readOctet m (a + 1) = some (BitVec.ofNat 8 (v % 256)) := by
  have hvalue : (BitVec.ofNat 16 v).toNat = v := by rw [BitVec.toNat_ofNat, Nat.mod_eq_of_lt hv]
  rw [encodeBe_two hvalue] at h
  exact ⟨readOctet_of_readOctets hm h (i := 0) (by omega),
    readOctet_of_readOctets hm h (i := 1) (by omega)⟩

/-- Settles O26: the octets of what SEND leaves in FB. -/
theorem sendPhaseAResult : Obligations.SendPhaseAResult := by
  intro s c payload h hp hphase hcap hle l
  obtain ⟨h42, hmax⟩ := h.legal c hcap
  have hfit : 42 + l ≤ c := by omega
  obtain ⟨m, dst, data, hexec, hdst, hleaves⟩ :=
    exec_send_leaves h hp (headerExists_iff.mpr hphase) hcap hfit
  have hwf := hleaves.canonical
  obtain ⟨h16, h17⟩ := readOctet_field hwf (by omega) hleaves.totalLength
  obtain ⟨h38, h39⟩ := readOctet_field hwf (by omega) hleaves.udpLength
  exact ⟨m, dst, data, hexec, hdst, hleaves.handed, readOctets_length hleaves.handed,
    fun i hi => readOctet_of_readOctets hwf hleaves.stored hi, h16, h17, hleaves.checksum, h38, h39,
    readOctet_of_readOctets hwf hleaves.sentinel (i := 0) (by omega),
    readOctet_of_readOctets hwf hleaves.sentinel (i := 1) (by omega), hleaves.unchanged⟩

/-! ### Two SENDs on one header -/

theorem SendLeaves.data_drop {old m : Memory} {payload data : List Byte}
    (h : SendLeaves old payload m data) : data.drop 42 = payload := by
  have hstored := readOctets_slice (b := 42) (k := payload.length) h.canonical h.handed (by omega)
  have hlength := readOctets_length h.handed
  rw [Nat.zero_add, h.stored, Option.some.injEq] at hstored
  rw [hstored, List.take_of_length_le (by rw [List.length_drop]; omega)]

theorem SendLeaves.data_getElem? {old m : Memory} {payload data : List Byte}
    (h : SendLeaves old payload m data) {a : Nat} (ha : a < 42) : data[a]? = readOctet m a := by
  rw [← readOctet_of_readOctets h.canonical h.handed (i := a) (by omega), Nat.zero_add]

/-- A second SEND finds the header of the first and changes its length fields and checksum only
(R192 to R195). -/
theorem SendLeaves.readOctet_repeat {old m m' : Memory} {payload payload' data data' : List Byte}
    (h : SendLeaves old payload m data) (h' : SendLeaves m payload' m' data') {a : Nat} (ha : a < 42)
    (hfields : a ≠ 16 ∧ a ≠ 17 ∧ a ≠ 24 ∧ a ≠ 25 ∧ a ≠ 38 ∧ a ≠ 39) :
    readOctet m a = readOctet m' a := by
  by_cases hsentinel : a = 40 ∨ a = 41
  · exact readOctet_eq_of_readOctets h.canonical h'.canonical h.sentinel h'.sentinel (by omega) (by omega)
  · exact (h'.unchanged a (by omega)).symm

/-- The checksum is that of the octets other than the checksum word (R164). -/
theorem ipChecksum_congr {h g : Octets 20}
    (heq : ∀ i, i < 20 → i ≠ 10 → i ≠ 11 → h.val[i]? = g.val[i]?) : ipChecksum h = ipChecksum g := by
  refine BitVec.eq_of_toNat_eq ?_
  rw [ipChecksum_toNat, ipChecksum_toNat, ipWords_eraseIdx_sum, ipWords_eraseIdx_sum,
    List.map_congr_left fun k hk => ?_]
  have hk10 : k < 10 := List.mem_range.mp hk
  by_cases h5 : k = 5
  · rw [otherWord, otherWord, if_pos h5, if_pos h5]
  · simp only [otherWord, if_neg h5, List.getD_eq_getElem?_getD,
      heq (2 * k) (by omega) (by omega) (by omega), heq (2 * k + 1) (by omega) (by omega) (by omega)]

/-- The checksum words agree where the payload lengths do: the headers summed differ nowhere else
(R193). -/
theorem SendLeaves.checksum_repeat {old m m' : Memory} {payload payload' data data' : List Byte}
    (h : SendLeaves old payload m data) (h' : SendLeaves m payload' m' data')
    (hlen : payload.length = payload'.length) :
    ∃ word, readOctets m 24 2 = some word ∧ readOctets m' 24 2 = some word := by
  obtain ⟨hdr, hhdr, hsum⟩ := h.checksum
  obtain ⟨hdr', hhdr', hsum'⟩ := h'.checksum
  have hsame : ipChecksum hdr = ipChecksum hdr' := ipChecksum_congr fun i hi h10 h11 => by
    rw [← readOctet_of_readOctets h.canonical hhdr hi,
      ← readOctet_of_readOctets h'.canonical hhdr' hi]
    by_cases htotal : i = 2 ∨ i = 3
    · exact readOctet_eq_of_readOctets h.canonical h'.canonical h.totalLength
        (by rw [hlen]; exact h'.totalLength) (by omega) (by omega)
    · exact h.readOctet_repeat h' (by omega) (by omega)
  exact ⟨_, hsum, by rw [hsame]; exact hsum'⟩

/-- For payloads of one length the two frames have one header (R200). -/
theorem SendLeaves.data_take_repeat {old m m' : Memory} {payload payload' data data' : List Byte}
    (h : SendLeaves old payload m data) (h' : SendLeaves m payload' m' data')
    (hlen : payload.length = payload'.length) : data.take 42 = data'.take 42 := by
  obtain ⟨word, hword, hword'⟩ := h.checksum_repeat h' hlen
  refine List.ext_getElem? fun a => ?_
  by_cases ha : a < 42
  · rw [List.getElem?_take_of_lt ha, List.getElem?_take_of_lt ha, h.data_getElem? ha,
      h'.data_getElem? ha]
    by_cases htotal : a = 16 ∨ a = 17
    · exact readOctet_eq_of_readOctets h.canonical h'.canonical h.totalLength
        (by rw [hlen]; exact h'.totalLength) (by omega) (by omega)
    by_cases hchecksum : a = 24 ∨ a = 25
    · exact readOctet_eq_of_readOctets h.canonical h'.canonical hword hword' (by omega) (by omega)
    by_cases hudp : a = 38 ∨ a = 39
    · exact readOctet_eq_of_readOctets h.canonical h'.canonical h.udpLength
        (by rw [hlen]; exact h'.udpLength) (by omega) (by omega)
    · exact h.readOctet_repeat h' ha (by omega)
  · rw [List.getElem?_take_eq_none (by omega), List.getElem?_take_eq_none (by omega)]

theorem inv_exec_send {s t : State} {payload : List Byte} (h : Inv s)
    (hexec : exec (.send payload) s = .next t) : Inv t := by
  obtain ⟨-, ⟨-, rfl⟩ | ⟨c, -, -, -, rfl⟩ | ⟨c, u, hphase, hcap, hfit, hwrite, hhand⟩⟩ :=
    execSend_cases hexec
  · exact inv_respond h _ _
  · exact inv_respond h _ _
  · obtain ⟨m, rfl, -⟩ := finalizeFrame_cases hwrite
    obtain ⟨dst, data, -, -, rfl⟩ := handOff_cases hhand
    exact inv_issueTxRequest (inv_finalizeFrame h hphase hcap hfit hwrite) hphase _ _ _

/-- Whatever the answer, phase B leaves the block ready for a next SEND on the same header
(R197 to R200). -/
theorem sendPhaseB_keeps_header (r : TxResponse) {s : State} (h : Inv s)
    (hphase : headerExists s.phase = true) :
    ∃ u, sendPhaseB r s = .next u ∧ Inv u ∧ headerExists u.phase = true ∧ u.pending = false ∧
      u.cap = s.cap ∧ u.fb = s.fb ∧ u.txRequests = s.txRequests := by
  obtain ⟨hB, -⟩ | ⟨n, -, -, hB⟩ := sendPhaseB_cases r s
  · exact ⟨_, hB, inv_respond (inv_with_pending h (by simp)) _ _, hphase, rfl, rfl, rfl, rfl⟩
  · exact ⟨_, hB, inv_respond (inv_with_pending (inv_with_phase h hphase rfl) (by simp)) _ _, rfl, rfl,
      rfl, rfl, rfl⟩

/-- Settles O33: the second SEND starts from the FB the first one left. -/
theorem repeatedSendSameHeader : Obligations.RepeatedSendSameHeader := by
  intro s c pay₁ pay₂ r h hp hphase hcap hfit₁ hfit₂
  have hheader := headerExists_iff.mpr hphase
  obtain ⟨m₁, dst₁, data₁, hexec₁, -, hleaves₁⟩ := exec_send_leaves h hp hheader hcap hfit₁
  obtain ⟨u, hB, hu, huphase, hupend, hucap, hufb, hureq⟩ :=
    sendPhaseB_keeps_header r (inv_exec_send h hexec₁) hheader
  obtain ⟨m₂, dst₂, data₂, hexec₂, -, hleaves₂⟩ :=
    exec_send_leaves hu hupend huphase (hucap.trans hcap) hfit₂
  rw [show u.fb = m₁ from hufb] at hleaves₂
  refine ⟨_, u, _, ⟨s.ifh, dst₁, data₁, 42 + pay₁.length⟩, ⟨u.ifh, dst₂, data₂, 42 + pay₂.length⟩,
    hexec₁, hB, hexec₂, rfl, ?_, fun a ha h16 h17 h24 h25 h38 h39 => ?_, hleaves₁.data_drop,
    hleaves₂.data_drop, hleaves₁.data_take_repeat hleaves₂⟩
  · rw [issueTxRequest_txRequests, hureq, issueTxRequest_txRequests, List.append_assoc]
    rfl
  · rw [hleaves₁.data_getElem? ha, hleaves₂.data_getElem? ha]
    exact hleaves₁.readOctet_repeat hleaves₂ ha ⟨h16, h17, h24, h25, h38, h39⟩

end Sys2Proof.Proofs
end

section
/-! PROOFS. From a state of the invariant a step never stops, and which steps issue a TX request
(spec/10_state.md R27; spec/42_builder.md R182, R189, R190; spec/60_exceptions.md R240): O45 and O49. -/

namespace Sys2Proof.Proofs

open Sys2Proof.Machine Sys2Proof.Safety

/-! ### The builder's commands complete -/

theorem exec_init_completes {s : State} (hp : s.pending = false) (c : BitVec 32) :
    ∃ t, exec (.init c) s = .next t := by
  obtain ⟨hsequence, hparam, hok⟩ := initResult c s hp
  by_cases hphase : s.phase = .uninit
  · by_cases hlegal : 42 ≤ c.toNat ∧ c.toNat ≤ 65549
    · exact ⟨_, hok hphase hlegal.1 hlegal.2⟩
    · exact ⟨_, hparam hphase (by omega)⟩
  · exact ⟨_, hsequence hphase⟩

theorem exec_buildHeader_uninit {s : State} (hp : s.pending = false) (hphase : s.phase = .uninit)
    (sm dm si di : List Byte) (sp dp : BitVec 16) :
    exec (.buildHeader sm dm si di sp dp) s = .next (respond .sequenceError [] s) := by
  simp only [exec, execBuildHeader, whenTaken_idle hp, if_pos hphase, raiseError]

/-- Outside UNINIT the invariant gives BUILD_HEADER its buffer (R182). -/
theorem exec_buildHeader_completes {s : State} (h : Inv s) (hp : s.pending = false)
    (sm dm si di : List Byte) (sp dp : BitVec 16) :
    ∃ t, exec (.buildHeader sm dm si di sp dp) s = .next t := by
  by_cases hphase : s.phase = .uninit
  · exact ⟨_, exec_buildHeader_uninit hp hphase sm dm si di sp dp⟩
  by_cases hlen : addressLengthsLegal sm dm si di = true
  · obtain ⟨p, rfl, rfl, rfl, rfl, rfl, rfl⟩ := exists_frameParams hlen sp dp
    obtain ⟨c, hcap⟩ := Option.ne_none_iff_exists'.mp (mt h.capacity.mpr hphase)
    obtain ⟨h42, -⟩ := h.legal c hcap
    exact ⟨_, exec_buildHeader_ok p hp hphase hcap h42 fun x b hr => lt_cap_of_readOctet h hcap hr⟩
  · rw [addressLengthsLegal_iff] at hlen
    exact ⟨_, addressLengthErrors s sm dm si di sp dp hp hphase (by omega)⟩

theorem exec_send_sequenceError {s : State} (hp : s.pending = false)
    (hphase : headerExists s.phase = false) (payload : List Byte) :
    exec (.send payload) s = .next (respond .sequenceError [] s) := by
  simp only [exec, execSend, whenTaken_idle hp, hphase, Bool.false_eq_true, if_false, raiseError]

theorem exec_send_capacityError {s : State} {c : Nat} {payload : List Byte} (hp : s.pending = false)
    (hphase : headerExists s.phase = true) (hcap : s.cap = some c) (hlong : c < 42 + payload.length) :
    exec (.send payload) s = .next (respond .capacityError [] s) := by
  have hgt : hdrTotal + payload.length > c := hlong
  simp only [exec, execSend, whenTaken_idle hp, hphase, if_true, hcap, if_pos hgt, raiseError]

/-- Where a header exists the invariant gives SEND its octets (R190). -/
theorem exec_send_completes {s : State} (h : Inv s) (hp : s.pending = false) (payload : List Byte) :
    ∃ t, exec (.send payload) s = .next t := by
  cases hphase : headerExists s.phase with
  | false => exact ⟨_, exec_send_sequenceError hp hphase payload⟩
  | true =>
    obtain ⟨bytes, hcap, -⟩ := h.octets hphase
    by_cases hfit : 42 + payload.length ≤ bytes.length
    · obtain ⟨_, _, _, hexec, -⟩ := exec_send_leaves h hp hphase hcap hfit
      exact ⟨_, hexec⟩
    · exact ⟨_, exec_send_capacityError hp hphase hcap (Nat.lt_of_not_le hfit)⟩

/-! ### Every step -/

theorem exec_pure_completes {s : State} {i : Instr} (hi : pureCommand i = true)
    (hp : s.pending = false) : ∃ t, exec i s = .next t := by
  obtain ⟨result, hexec⟩ := exec_pure hi
  exact ⟨_, hexec s hp⟩

theorem exec_completes {s : State} (h : Inv s) (hp : s.pending = false) (i : Instr) :
    ∃ t, exec i s = .next t := by
  cases i with
  | init c => exact exec_init_completes hp c
  | buildHeader sm dm si di sp dp => exact exec_buildHeader_completes h hp sm dm si di sp dp
  | send payload => exact exec_send_completes h hp payload
  | _ => exact exec_pure_completes rfl hp

theorem runPacket_completes {s : State} (h : Inv s) (hp : s.pending = false) (p : List Byte) :
    ∃ t, runPacket p s = .next t := by
  cases hdec : decode p with
  | error e => exact ⟨respond (decodeStatus e) [] s, by simp only [runPacket, hdec, raiseError]⟩
  | ok i =>
    rw [runPacket_of_decode hdec]
    exact exec_completes h hp i

/-- Settles O45: a packet is run in a state of the invariant, and every other step completes in any
state. -/
theorem invariantStatesNeverStop : Obligations.InvariantStatesNeverStop := by
  intro s h
  obtain ⟨-, hs⟩ | ⟨p, left, hp, -, hs⟩ | ⟨left, -, hs⟩ | ⟨q, r, left, -, -, hs⟩ |
    ⟨q, r, left, -, -, -, hs⟩ := step_cases s
  · exact ⟨_, hs⟩
  · rw [hs]
    exact runPacket_completes (inv_with_inputs h left) hp p
  · exact ⟨_, hs⟩
  · exact ⟨_, hs⟩
  · rw [hs]
    obtain ⟨hB, -⟩ | ⟨n, -, -, hB⟩ := sendPhaseB_cases r { s with inputs := left }
    · exact ⟨_, hB⟩
    · exact ⟨_, hB⟩

/-- Settles O49: of the effects of a step only that of a SEND past its checks issues a request. -/
theorem onlySendIssuesRequests : Obligations.OnlySendIssuesRequests := by
  intro s t hstep
  cases stepEffect_of_step hstep with
  | inputs left ht => exact .inl (by simp [ht])
  | packet p left hp hin heff =>
    cases heff with
    | answered st result ht => exact .inl (by simp [ht])
    | init c hdec hphase hlegal ht => exact .inl (by simp [ht])
    | buildHeader sm dm si di sp dp c m hdec hphase hlen hcap hwrite ht => exact .inl (by simp [ht])
    | send payload c m dst data hdec hphase hcap hfit hwrite hdst hdata ht =>
      exact .inr ⟨hp, by simp [ht], p, left, payload, c, _, hin, hdec, headerExists_iff.mp hphase,
        hcap, hfit, by rw [ht, issueTxRequest_txRequests]⟩
  | reset left hin ht => exact .inl (by simp [ht])
  | sendFailed left hp ht => exact .inl (by simp [ht])
  | sendDone n left hp hn hin ht => exact .inl (by simp [ht])

end Sys2Proof.Proofs
end

section
/-! PROOFS. What a command that ends with an error leaves: the response and nothing else
(spec/60_exceptions.md R242, R246, R248, R251, R252): O20, O25, O36 and O52. -/

namespace Sys2Proof.Proofs

open Sys2Proof.Machine Sys2Proof.Safety

/-! ### A packet answered with an error -/

theorem status_of_respond_ok {s u : State} {st : Byte} {result : List Byte}
    (hu : u.responses = s.responses)
    (h : (respond .ok [] u).responses = s.responses ++ [st :: result]) : st = 0x00 := by
  rw [respond_responses, hu, List.append_cancel_left_eq] at h
  exact (List.head_eq_of_cons_eq (List.head_eq_of_cons_eq h)).symm

/-- Of a packet's effects only an answer that changes nothing else carries a status other than OK: INIT
and BUILD_HEADER answer 0x00 where they change the state, and phase A of SEND answers nothing (R251). -/
theorem PacketEffect.eq_of_error {p : List Byte} {s t : State} {st : Byte} {result : List Byte}
    (h : PacketEffect p s t) (hresp : t.responses = s.responses ++ [st :: result])
    (hst : st ≠ 0x00) : t = { s with responses := s.responses ++ [st :: result] } := by
  cases h with
  | answered e r ht => rw [← hresp, ht, respond]
  | init c hdec hphase hlegal ht =>
    subst ht
    exact absurd (status_of_respond_ok rfl hresp) hst
  | buildHeader sm dm si di sp dp c m hdec hphase hlen hcap hwrite ht =>
    subst ht
    exact absurd (status_of_respond_ok rfl hresp) hst
  | send payload c m dst data hdec hphase hcap hfit hwrite hdst hdata ht =>
    rw [ht, issueTxRequest_responses] at hresp
    simp at hresp

/-- An error is answered without a result (R241). -/
theorem result_eq_nil_of_error {s t : State} {st : Byte} {result : List Byte} (h : step s = .next t)
    (hresp : t.responses = s.responses ++ [st :: result]) (hst : st ≠ 0x00) : result = [] := by
  obtain hsame | ⟨st', result', hresp', -, hresult⟩ := responsesWellFormed s t h
  · simp [hsame] at hresp
  · obtain ⟨rfl, rfl⟩ : st = st' ∧ result = result' := by simpa using hresp.symm.trans hresp'
    exact hresult hst

/-- Settles O52: the step runs the packet, and an error is an answer that changes nothing else. -/
theorem errorsButTransmitErrorLeaveNothing : Obligations.ErrorsButTransmitErrorLeaveNothing := by
  intro s t p left st result hp hin hstep hresp hst
  obtain rfl := result_eq_nil_of_error hstep hresp hst
  rw [step_command hp hin] at hstep
  exact (packetEffect_of_runPacket (s := { s with inputs := left }) hp hstep).eq_of_error hresp hst

/-! ### Each error where it is raised -/

theorem headerExists_eq_false_iff {ph : BuilderState} :
    headerExists ph = false ↔ ph = .uninit ∨ ph = .ready := by
  cases ph <;> decide

/-- Settles O20: the check of STATE comes before every other check of the three commands. -/
theorem sequenceErrors : Obligations.SequenceErrors := fun s hp =>
  ⟨fun hphase sm dm si di sp dp => exec_buildHeader_uninit hp hphase sm dm si di sp dp,
    fun hphase payload => exec_send_sequenceError hp (headerExists_eq_false_iff.mpr hphase) payload,
    fun hphase c => (initResult c s hp).1 hphase⟩

/-- Settles O25: a payload longer than CAP - 42 needs more than CAP octets with its headers. -/
theorem capacityErrors : Obligations.CapacityErrors := fun _ _ _ hp hphase hcap h42 hlong =>
  exec_send_capacityError hp (headerExists_iff.mpr hphase) hcap (by omega)

/-- Settles O36: both errors are answered the same way, each with its own status. -/
theorem decoderErrorsAnswered : Obligations.DecoderErrorsAnswered := fun _ _ _ hp hin =>
  ⟨step_of_decode_error hp hin, step_of_decode_error hp hin⟩

end Sys2Proof.Proofs
end

section
/-! PROOFS. Reset, and what a step takes behind commands held back (spec/70_reset_and_hazards.md R280,
R281, R291, R293): O37 to O40. -/

namespace Sys2Proof.Proofs

open Sys2Proof.Machine Sys2Proof.Safety

/-! ### The input behind commands held back -/

/-- Whether PENDING holds commands back or not, the first input behind them that is no command is the
one taken (log entry 11). -/
theorem nextInput_of_heldBack {s : State} {held rest : List Input} {i : Input}
    (hheld : HeldBack s held) (hi : ∀ p, i ≠ .command p) (hin : s.inputs = held ++ i :: rest) :
    nextInput s.pending s.inputs = some (i, held ++ rest) := by
  obtain ⟨hidle, hcommands⟩ := hheld
  rw [hin]
  cases hp : s.pending with
  | true => exact nextInput_held hcommands i hi rest
  | false =>
    obtain rfl := hidle hp
    exact nextInput_idle i rest

/-- A reset is taken at any time, and commands held back stay in place (R280). -/
theorem step_reset {s : State} {held rest : List Input} (hheld : HeldBack s held)
    (hin : s.inputs = held ++ .reset :: rest) :
    step s = .next (applyReset { s with inputs := held ++ rest }) := by
  simp only [step, nextInput_of_heldBack hheld (by simp) hin]

/-- An answer that the block does not wait for is taken with no other effect (R281; log entry 10). -/
theorem step_lateAnswer {s : State} {q : Nat} {r : TxResponse} {held rest : List Input}
    (hheld : HeldBack s held) (hin : s.inputs = held ++ .txAnswer q r :: rest)
    (hlate : s.pending = false ∨ q ≠ s.txRequests.length) :
    step s = .next { s with inputs := held ++ rest } := by
  have hnot : answersPending q { s with inputs := held ++ rest } = false := by
    obtain hp | hq := hlate
    · simp [answersPending, hp]
    · simp [answersPending, hq]
  simp [step, nextInput_of_heldBack hheld (by simp) hin, takeTxAnswer, hnot]

/-- With no input to take the block waits (R293; log entry 12). -/
theorem step_waits {s : State} (h : nextInput s.pending s.inputs = none) : step s = .next s := by
  simp only [step, h]

/-! ### The obligations -/

/-- Settles O37: commands are refused and passed over; a reset or the awaited answer behind them is
what the step takes. -/
theorem pendingHoldsCommands : Obligations.PendingHoldsCommands := fun s hp =>
  ⟨fun _ => exec_pending hp,
    fun hcommands => step_waits (by rw [hp, nextInput_only_commands hcommands]),
    fun _ _ hheld => ⟨step_reset hheld, fun _ => step_awaitedAnswer hp hheld⟩⟩

/-- Settles O39: the step applies the reset, which writes the four items of the state and no other
field. -/
theorem resetEffects : Obligations.ResetEffects := fun _ _ _ hheld hin => step_reset hheld hin

/-- Settles O40: the reset clears PENDING and sends nothing, and from then on the answer is late. -/
theorem pendingSendAbandoned : Obligations.PendingSendAbandoned :=
  ⟨fun _ _ _ _ hheld hin => ⟨_, step_reset hheld hin, applyReset_pending _, applyReset_responses _,
    applyReset_txRequests _⟩,
    fun _ _ _ _ _ => step_lateAnswer⟩

/-- Settles O38: the empty list holds no input to take. -/
theorem waitsWithoutInput : Obligations.WaitsWithoutInput := fun s hin =>
  step_waits (by rw [hin, nextInput_nil])

end Sys2Proof.Proofs
end
